-- ==== Sys2Proof/Word.lean ====
section
/-! DEFINITION. The words of the machine: bytes, 32-bit words and register indices (00_scope.md R4, R5, R9). -/

namespace Sys2Proof

/-- A byte, `u8` (R5). -/
abbrev Byte := BitVec 8

/-- XLEN and CTRLLEN are 32 (R4): a register, an immediate, a data word, `Ip`, `Sp`, `Bp`, a call-stack entry.
Its value as an `i32` is `BitVec.toInt`. -/
abbrev Word := BitVec 32

/-- An index of one of the NGPR = 256 general-purpose registers; every 8-bit operand names one (R9, R21, R83). -/
abbrev Reg := Fin 256

/-- The largest `i32`, INT_MAX (R5); also the bound of CLEN, DLEN and STACK_BASE (R4). -/
def intMax : Nat := 2147483647

end Sys2Proof
end

