-- ==== Sys2Proof/Config.lean ====
section
/-! DEFINITION. What is fixed for a run: the OPEN parameters of 00_scope.md R4 and the loaded program of
70_reset_and_hazards.md R241. They are data that reset takes as arguments (R240), so a statement about every state
holds for every value of them. The spec leaves no value of the block free (93_implementation_defined.md, after I12),
so there is no opaque constant here. -/

namespace Sys2Proof

/-- The OPEN parameters of R4: the reset value of `Sp` and `Bp`, and the most entries the call stack can hold. -/
structure Params where
  /-- STACK_BASE, at most 2^31 - 1 (R4, D8). -/
  stackBase : Nat
  /-- CALL_DEPTH_MAX (R4, D10). -/
  callDepthMax : Nat
deriving DecidableEq, Repr

/-- One entry of the symbol table: a name, as its bytes, and a code offset (R241, R244). -/
structure Symbol where
  name : List Byte
  codeOffset : Word
deriving DecidableEq, Repr

/-- A loaded program: the bundle of symbol table, code bytes and data bytes (R241). -/
structure LoadedProgram where
  symbols : List Symbol
  code : List Byte
  data : List Byte
deriving DecidableEq, Repr

/-- The program with no symbol, no code and no data: what `State.reset` holds before anything is loaded (log entry 4). -/
def LoadedProgram.empty : LoadedProgram := { symbols := [], code := [], data := [] }

/-- DESIGN CHOICE (log entry 3, unsafe): the parameter values of `State.reset`. The spec gives none, so no statement
may rest on them; `State.resetWith` takes any. -/
def Params.atReset : Params := { stackBase := 0, callDepthMax := 1024 }

end Sys2Proof
end

