-- ==== Sys2Proof/Syntax.lean ====
section
/-! DEFINITION. The closed set of 16 instructions (30_encoding.md R86), one constructor per row of opcode_table.json,
the operands in the byte order of the row. A register operand is any of the 256 indices (R83) and an immediate any
32-bit pattern (R84): every operand value is legal (R88), so the types are the whole check of an operand. -/

namespace Sys2Proof

/-- An instruction with its operands (R80, R86). -/
inductive Instr where
  /-- 0x00, format I: call the absolute code offset `target` (R130). -/
  | call (target : Word)
  /-- 0x01, format N: return (R131). -/
  | ret
  /-- 0x02, format R: send the low byte of `x[reg]` (R140). -/
  | writeByte (reg : Reg)
  /-- 0x03, format R: wait for a byte and put it in `x[reg]` (R141). -/
  | readByte (reg : Reg)
  /-- 0x04, format N: send a snapshot to the diagnostic sink (R142). -/
  | debug
  /-- 0x05, format N: halt cleanly (R143). -/
  | exit
  /-- 0x06, format IR: `x[reg]` := the word at `addr` (R160). -/
  | load (addr : Word) (reg : Reg)
  /-- 0x07, format RI: the word at `addr` := `x[reg]` (R161). -/
  | store (reg : Reg) (addr : Word)
  /-- 0x08, format R: push `x[reg]` on the operand stack (R162). -/
  | push (reg : Reg)
  /-- 0x09, format R: pop the operand stack into `x[reg]` (R163). -/
  | pop (reg : Reg)
  /-- 0x0A, format IR: `x[reg]` := `value` (R164). -/
  | fill (value : Word) (reg : Reg)
  /-- 0x0B, format N: no effect but the advance of `Ip` (R144). -/
  | nop
  /-- 0x0C, format RRR (R181). -/
  | add (dest src1 src2 : Reg)
  /-- 0x0D, format RRR (R182). -/
  | subtract (dest src1 src2 : Reg)
  /-- 0x0E, format RRR (R183). -/
  | multiply (dest src1 src2 : Reg)
  /-- 0x0F, format RRR (R184). -/
  | divide (dest src1 src2 : Reg)
deriving DecidableEq, Repr

end Sys2Proof
end

