-- ==== Sys2Proof/Decode.lean ====
section
/-! DEFINITION. Bytes to instructions and back (30_encoding.md R80 to R91): byte order, operand assembly, the opcode
map, the decoder (total on any bytes, its two rejections by name), the encoder, and the decoder read on a word
numbered as spec/opcode_table.json numbers it. -/

namespace Sys2Proof

/-- Big-endian combination of four bytes: the `i32` whose bit pattern is `b0 ++ b1 ++ b2 ++ b3` (R84). -/
def wordOf (b0 b1 b2 b3 : Byte) : Word := b0 ++ b1 ++ b2 ++ b3

/-- The four big-endian bytes `u[31:24], u[23:16], u[15:8], u[7:0]` of a word (R55, R90). -/
def wordBytes (u : Word) : List Byte :=
  [u.extractLsb' 24 8, u.extractLsb' 16 8, u.extractLsb' 8 8, u.extractLsb' 0 8]

/-- `wordOfSlice`: a word from a slice, none (`InvalidLength`) unless it has exactly 4 bytes (R84). -/
def wordOfSlice : List Byte → Option Word
  | [b0, b1, b2, b3] => some (wordOf b0 b1 b2 b3)
  | _ => none

/-- A register operand: one byte, read as an unsigned index, not scaled (R83). -/
def regOf (b : Byte) : Reg := b.toFin

/-- The index byte of a register (R90). -/
def regByte (r : Reg) : Byte := BitVec.ofFin r

/-- Byte `k` of the instruction, `B(k)` of R85; read only where the instruction is long enough. -/
def byteAt (bs : List Byte) (k : Nat) : Byte := bs.getD k 0#8

/-- The register operand in byte `k` (R83). -/
def regAt (bs : List Byte) (k : Nat) : Reg := regOf (byteAt bs k)

/-- The immediate operand in bytes `k` to `k + 3`, `I(k)` of R85 (R84). -/
def immAt (bs : List Byte) (k : Nat) : Word :=
  wordOf (byteAt bs k) (byteAt bs (k + 1)) (byteAt bs (k + 2)) (byteAt bs (k + 3))

/-- `SIZE[op]`, the size column of R86; none for the opcodes 16 to 255, which have no length (R89). -/
def opcodeSize : Nat → Option Nat
  | 0 => some 5
  | 1 => some 1
  | 2 => some 2
  | 3 => some 2
  | 4 => some 1
  | 5 => some 1
  | 6 => some 6
  | 7 => some 6
  | 8 => some 2
  | 9 => some 2
  | 10 => some 6
  | 11 => some 1
  | 12 => some 4
  | 13 => some 4
  | 14 => some 4
  | 15 => some 4
  | _ => none

/-- The `case op of` of R85: the instruction of opcode `op` with its operands taken from the bytes `bs` (the opcode
byte first). -/
def operandsOf (op : Nat) (bs : List Byte) : Option Instr :=
  match op with
  | 0 => some (.call (immAt bs 1))
  | 1 => some .ret
  | 2 => some (.writeByte (regAt bs 1))
  | 3 => some (.readByte (regAt bs 1))
  | 4 => some .debug
  | 5 => some .exit
  | 6 => some (.load (immAt bs 1) (regAt bs 5))
  | 7 => some (.store (regAt bs 1) (immAt bs 2))
  | 8 => some (.push (regAt bs 1))
  | 9 => some (.pop (regAt bs 1))
  | 10 => some (.fill (immAt bs 1) (regAt bs 5))
  | 11 => some .nop
  | 12 => some (.add (regAt bs 1) (regAt bs 2) (regAt bs 3))
  | 13 => some (.subtract (regAt bs 1) (regAt bs 2) (regAt bs 3))
  | 14 => some (.multiply (regAt bs 1) (regAt bs 2) (regAt bs 3))
  | 15 => some (.divide (regAt bs 1) (regAt bs 2) (regAt bs 3))
  | _ => none

/-- What decoding returns: an instruction with its encoded size, or None for one of the two reasons of R87. The
reasons have names so that a reader sees which one holds; the step treats both as None (R112). -/
inductive Decoded where
  /-- `(Instruction, size)` of R85. -/
  | instr (i : Instr) (size : Nat)
  /-- None: the opcode byte is 16 to 255 (R87, first case). -/
  | unrecognizedOpcode (op : Byte)
  /-- None: fewer than `SIZE[op]` bytes are left (R87, second case), or no byte at all. -/
  | insufficientBytes
deriving DecidableEq, Repr

/-- `decode(bytes)` of R85, on the bytes from `Ip` to the end of the code segment. -/
def decode (bs : List Byte) : Decoded :=
  match bs with
  | [] => .insufficientBytes
  | op :: _ =>
    match opcodeSize op.toNat, operandsOf op.toNat bs with
    | some n, some i => if bs.length < n then .insufficientBytes else .instr i n
    | _, _ => .unrecognizedOpcode op

/-- The opcode of an instruction (R86). -/
def Instr.opcode : Instr → Nat
  | .call _ => 0
  | .ret => 1
  | .writeByte _ => 2
  | .readByte _ => 3
  | .debug => 4
  | .exit => 5
  | .load _ _ => 6
  | .store _ _ => 7
  | .push _ => 8
  | .pop _ => 9
  | .fill _ _ => 10
  | .nop => 11
  | .add _ _ _ => 12
  | .subtract _ _ _ => 13
  | .multiply _ _ _ => 14
  | .divide _ _ _ => 15

/-- The encoded size of an instruction, fixed by its opcode alone (R86, R89). -/
def Instr.size (i : Instr) : Nat := (opcodeSize i.opcode).getD 0

/-- `encode`: the opcode byte, then each operand in the order of R86, a register as its index byte and an immediate
as its four big-endian bytes (R90, the bytes column of R96). -/
def encode : Instr → List Byte
  | .call target => 0x00#8 :: wordBytes target
  | .ret => [0x01#8]
  | .writeByte reg => [0x02#8, regByte reg]
  | .readByte reg => [0x03#8, regByte reg]
  | .debug => [0x04#8]
  | .exit => [0x05#8]
  | .load addr reg => 0x06#8 :: (wordBytes addr ++ [regByte reg])
  | .store reg addr => 0x07#8 :: regByte reg :: wordBytes addr
  | .push reg => [0x08#8, regByte reg]
  | .pop reg => [0x09#8, regByte reg]
  | .fill value reg => 0x0A#8 :: (wordBytes value ++ [regByte reg])
  | .nop => [0x0B#8]
  | .add dest src1 src2 => [0x0C#8, regByte dest, regByte src1, regByte src2]
  | .subtract dest src1 src2 => [0x0D#8, regByte dest, regByte src1, regByte src2]
  | .multiply dest src1 src2 => [0x0E#8, regByte dest, regByte src1, regByte src2]
  | .divide dest src1 src2 => [0x0F#8, regByte dest, regByte src1, regByte src2]

/-- The length of the longest instruction (R80). -/
def maxInstrLength : Nat := 6

/-- The first `nbits` bits of `w` laid out as the hardware stores them, the lowest-numbered byte at the lowest
address, and zeros after them up to the longest instruction (R80, R81). -/
def tableWordBytes (nbits w : Nat) : List Byte :=
  (List.range maxInstrLength).map (fun k => BitVec.ofNat 8 ((w % 2 ^ nbits) / 2 ^ (8 * k)))

/-- The instruction the decoder reads from an instruction whose bits are `w`, numbered as spec/opcode_table.json
numbers them. -/
def decodeTableWord (nbits w : Nat) : Option Instr :=
  match decode (tableWordBytes nbits w) with
  | .instr i _ => some i
  | .unrecognizedOpcode _ => none
  | .insufficientBytes => none

end Sys2Proof
end

