-- ==== Sys2Proof/Machine/Memory.lean ====
section
/-! DEFINITION. One segment (10_state.md R30, R31) as plain data: its size in bytes and the list of its nonzero bytes,
in one canonical form, with the byte and word accesses of 20_memory.md R53 to R57. Every byte of a segment has a
value from the loaded image (R36); a byte that is zero is not listed (log entry 8). -/

namespace Sys2Proof.Machine

/-- A segment of `size` bytes, at offsets 0 to `size - 1`. `cells` lists the bytes that are not zero, by rising
offset. -/
structure Memory where
  size : Nat
  cells : List Host.Cell
deriving DecidableEq, Repr

/-- The segment of no bytes. -/
def Memory.empty : Memory := { size := 0, cells := [] }

/-- The canonical form: offsets strictly rising and inside the segment, no listed byte zero. -/
abbrev Memory.wf (m : Memory) : Prop :=
  m.cells.Pairwise (fun c d => c.1 < d.1) ∧ ∀ c ∈ m.cells, c.1 < m.size ∧ c.2 ≠ 0#8

/-- The byte a list of cells gives an offset; an offset that is not listed reads as 0 (log entry 8). -/
def cellsRead : List Host.Cell → Nat → Byte
  | [], _ => 0#8
  | c :: rest, a => if c.1 = a then c.2 else cellsRead rest a

/-- Put a byte in a list of cells, keeping the canonical form: a zero byte removes the entry. -/
def cellsWrite : List Host.Cell → Nat → Byte → List Host.Cell
  | [], a, v => if v = 0#8 then [] else [(a, v)]
  | c :: rest, a, v =>
    if c.1 < a then c :: cellsWrite rest a v
    else if c.1 = a then (if v = 0#8 then rest else (a, v) :: rest)
    else (if v = 0#8 then c :: rest else (a, v) :: c :: rest)

/-- The byte at offset `a`: `CodeByte(a)`, `DATA[a]` (R6). -/
def Memory.read (m : Memory) (a : Nat) : Byte := cellsRead m.cells a

/-- Write the byte at offset `a`; an offset outside the segment is not written (R59). -/
def Memory.write (m : Memory) (a : Nat) (v : Byte) : Memory :=
  if a < m.size then { m with cells := cellsWrite m.cells a v } else m

/-- Write consecutive bytes from offset `a` up. -/
def Memory.writeBytes (m : Memory) (a : Nat) : List Byte → Memory
  | [] => m
  | b :: bs => (m.write a b).writeBytes (a + 1) bs

/-- The bytes at `a` to `a + n - 1`, lowest offset first: `MemRead(a, n)` (R6). -/
def Memory.bytes (m : Memory) (a n : Nat) : List Byte := (List.range n).map (fun k => m.read (a + k))

/-- The cells of a byte string that starts at offset `a`. -/
def cellsOf (a : Nat) : List Byte → List Host.Cell
  | [] => []
  | b :: bs => if b = 0#8 then cellsOf (a + 1) bs else (a, b) :: cellsOf (a + 1) bs

/-- The segment that holds a byte string, byte for byte (R240). -/
def Memory.ofBytes (bs : List Byte) : Memory := { size := bs.length, cells := cellsOf 0 bs }

/-- The same segment with room for at least `n` bytes; the new bytes are zero. Only loading a program uses it: no
instruction grows a segment (R31). -/
def Memory.grow (m : Memory) (n : Nat) : Memory := { m with size := max m.size n }

/-- An offset is word-valid when a word at it lies wholly inside the segment, in exact integers (R53). -/
def Memory.wordValid (m : Memory) (a : Int) : Prop := 0 ≤ a ∧ a + 4 ≤ (m.size : Int)
deriving Decidable

/-- `readWord(addr)`: none, for `OutOfBounds`, if the offset is not word-valid; otherwise the big-endian word (R54). -/
def Memory.readWord (m : Memory) (a : Int) : Option Word :=
  if m.wordValid a then
    some (wordOf (m.read a.toNat) (m.read (a.toNat + 1)) (m.read (a.toNat + 2)) (m.read (a.toNat + 3)))
  else none

/-- `writeWord(addr, v)`: none, for `OutOfBounds`, if the offset is not word-valid; otherwise the four bytes of `v` in
big-endian order at `addr` to `addr + 3` (R55). -/
def Memory.writeWord (m : Memory) (a : Int) (v : Word) : Option Memory :=
  if m.wordValid a then some (m.writeBytes a.toNat (wordBytes v)) else none

end Sys2Proof.Machine
end

