-- ==== Sys2Proof/Machine/State.lean ====
section
/-! DEFINITION. The state of the block (10_state.md R20 to R36) and of the interfaces attached to it (60_exceptions.md
R220 to R223), as plain data, with its value after reset (R36, 70_reset_and_hazards.md R240). -/

namespace Sys2Proof.Machine

/-- The six fault kinds of R200. A step that raises one answers a next state whose run state is `Faulted(K)` (R201,
log entry 1), so no step of this model ends in `Host.Outcome.fault`. Each is safe: the spec names the fault and the
state it leaves. -/
inductive Fault where
  /-- Raised by the decode part of every step: opcode 16 to 255, or a truncated instruction (R112). Safe. -/
  | invalidInstruction
  /-- Raised by the fetch part of every step: `Ip` outside `[0, CLEN)` (R111). Safe. -/
  | unableToFetch
  /-- Raised by Load, Store and Push: the offset is not word-valid (R160 to R162). Safe. -/
  | outOfBounds
  /-- Raised by Call on a full call stack and by Push with `Sp` < 4 (R130, R162). Safe. -/
  | stackOverflow
  /-- Raised by Ret on an empty call stack and by Pop at the top of the data segment (R131, R163). Safe. -/
  | stackUnderflow
  /-- Raised by Divide with a zero divisor (R184). Safe. -/
  | divideByZero
deriving DecidableEq, Repr

/-- Why a step has no meaning. No instruction of this model is refused. -/
inductive Refusal where
  /-- Raised by an arm of `exec` whose instruction has no meaning yet; there is none. Safe. -/
  | notModelled (mnemonic : String)
deriving DecidableEq, Repr

/-- The run state `RS` (R32). -/
inductive RunState where
  | running
  | exited
  | faulted (kind : Fault)
deriving DecidableEq, Repr

/-- A `Debug` snapshot: the control registers and the register file (R142, R223, D18). -/
structure Snapshot where
  ip : Word
  sp : Word
  bp : Word
  regs : Vector Word 256
deriving DecidableEq, Repr

/-- Everything the spec gives the machine. -/
structure State where
  /-- `x[0]` to `x[255]` (R20). -/
  regs : Vector Word 256
  /-- `Ip`, the byte offset into the code segment of the instruction being fetched (R24). -/
  ip : Word
  /-- `Sp`, the offset of the next free word of the operand stack (R26). -/
  sp : Word
  /-- `Bp` (R27). -/
  bp : Word
  /-- `CS`, oldest entry first; the last entry is the next one popped (R28). -/
  callStack : List Word
  /-- `CODE`; its size is CLEN (R30). -/
  code : Memory
  /-- `DATA`; its size is DLEN (R31). -/
  data : Memory
  /-- `RS` (R32). -/
  runState : RunState
  /-- The input wait (R33): none when ready, `some r` while a `ReadByte(r)` waits for a byte. -/
  waitingFor : Option Reg
  /-- STACK_BASE and CALL_DEPTH_MAX, fixed for the run (R35). -/
  params : Params
  /-- The bytes the I/O capability has supplied and the block has not consumed, oldest first (R222, log entry 5). -/
  input : List Byte
  /-- The bytes the I/O capability has received, oldest first (R221, log entry 6). -/
  output : List Byte
  /-- The snapshots the diagnostic sink has received, oldest first (R223, log entry 6). -/
  snapshots : List Snapshot
deriving DecidableEq, Repr

/-- Reset with the parameters `p` and the loaded program `prog`: the table of R36, by R240. Nothing has been supplied,
sent or snapshot yet. -/
def State.resetWith (p : Params) (prog : LoadedProgram) : State :=
  { regs := Vector.replicate 256 0
    ip := 0
    sp := BitVec.ofNat 32 p.stackBase
    bp := BitVec.ofNat 32 p.stackBase
    callStack := []
    code := Memory.ofBytes prog.code
    data := Memory.ofBytes prog.data
    runState := .running
    waitingFor := none
    params := p
    input := []
    output := []
    snapshots := [] }

/-- The machine right after reset with no program loaded (log entries 3 and 4). -/
def State.reset : State := State.resetWith Params.atReset LoadedProgram.empty

end Sys2Proof.Machine
end

