-- ==== Sys2Proof/Machine/Ops.lean ====
section
/-! DEFINITION. The named operations every meaning is written over: register access (10_state.md R21), the advance of
`Ip` (40_step.md R114), data words (20_memory.md R54, R55), the call stack (10_state.md R28), raising a fault
(60_exceptions.md R201), halting, and the transfers to the I/O capability and the diagnostic sink (00_scope.md R7). -/

namespace Sys2Proof.Machine

/-- The three outcomes at this machine's types. -/
abbrev Result := Host.Outcome State Fault Refusal

/-- The next state of a result, none where it is not a next state. -/
def nextState : Result → Option State
  | .next s => some s
  | .fault _ => none
  | .refused _ => none

/-- `x[r]`: `readRegister`, which cannot fail (R21). -/
def State.reg (s : State) (r : Reg) : Word := s.regs[r]

/-- `x[r] <- v`: `writeRegister`, which cannot fail (R21). No register is hardwired (R20). -/
def State.setReg (s : State) (r : Reg) (v : Word) : State := { s with regs := s.regs.set r v }

/-- `pc <- v` (R6). -/
def State.setIp (s : State) (v : Word) : State := { s with ip := v }

/-- `Sp <- v` (R6). -/
def State.setSp (s : State) (v : Word) : State := { s with sp := v }

/-- The data segment after a write. -/
def State.setData (s : State) (m : Memory) : State := { s with data := m }

/-- `Ip <- Ip + size`, the advance after an instruction that is not `Call` or `Ret` (R114). -/
def State.advance (s : State) (size : Nat) : State := s.setIp (s.ip + BitVec.ofNat 32 size)

/-- The state a fault of kind `k` leaves: only `RS` changes (R201, R203). -/
def State.faulted (s : State) (k : Fault) : State := { s with runState := .faulted k }

/-- `raise K` (R7): the step ends, the run state is `Faulted(K)` and nothing else changes (R201). This is all there is
to taking a fault: no state is saved, no mode changes and control goes to no handler (R207), and no instruction
returns from a fault (R208). -/
def raise (k : Fault) (s : State) : Result := .next (s.faulted k)

/-- `halt Exited` (R7, R143). -/
def State.halt (s : State) : State := { s with runState := .exited }

/-- The word at data offset `a`; none for `OutOfBounds` (R54). -/
def State.readWord (s : State) (a : Int) : Option Word := s.data.readWord a

/-- The state after writing the word `v` at data offset `a`; none for `OutOfBounds`, and then nothing is written
(R55). -/
def State.writeWord (s : State) (a : Int) (v : Word) : Option State := (s.data.writeWord a v).map s.setData

/-- `CS.push(v)`; none when the call stack already holds CALL_DEPTH_MAX entries (R130). -/
def State.pushCall (s : State) (v : Word) : Option State :=
  if s.callStack.length = s.params.callDepthMax then none
  else some { s with callStack := s.callStack ++ [v] }

/-- `CS.pop()`, the last entry and the state without it; none when the call stack is empty (R131). -/
def State.popCall (s : State) : Option (Word × State) :=
  match s.callStack.getLast? with
  | none => none
  | some v => some (v, { s with callStack := s.callStack.dropLast })

/-- `IoWrite(b)`: the capability receives one more byte; it cannot refuse it (R221). -/
def State.ioWrite (s : State) (b : Byte) : State := { s with output := s.output ++ [b] }

/-- `IoRead()`: the oldest byte the capability has supplied, consumed, and the wait over; none while no byte is there
(R222). -/
def State.ioRead (s : State) : Option (Byte × State) :=
  match s.input with
  | [] => none
  | b :: rest => some (b, { s with input := rest, waitingFor := none })

/-- A `ReadByte(r)` waits: nothing else changes (R33, R141). -/
def State.wait (s : State) (r : Reg) : State := { s with waitingFor := some r }

/-- The snapshot of R142: the control registers and the whole register file, as they are now. -/
def State.snapshot (s : State) : Snapshot := { ip := s.ip, sp := s.sp, bp := s.bp, regs := s.regs }

/-- `DebugEmit(n)`: the sink receives one more snapshot (R223). -/
def State.debugEmit (s : State) (n : Snapshot) : State := { s with snapshots := s.snapshots ++ [n] }

end Sys2Proof.Machine
end

