-- ==== Sys2Proof/Machine/Alu.lean ====
section
/-! DEFINITION. The ALU (44_arithmetic.md R180 to R185): operands to integers, the exact result, narrowed at the end.
There is no flag to compute: no instruction sets or reads one (10_state.md R34), and overflow only wraps (R180). -/

namespace Sys2Proof.Machine

/-- `wrap32(v)`: the `i32` congruent to `v` modulo 2^32 (00_scope.md R5). -/
def wrap32 (v : Int) : Word := BitVec.ofInt 32 v

/-- `wrap32(a + b)` (R181). -/
def aluAdd (a b : Word) : Word := wrap32 (a.toInt + b.toInt)

/-- `wrap32(a - b)` (R182). -/
def aluSubtract (a b : Word) : Word := wrap32 (a.toInt - b.toInt)

/-- `wrap32(a * b)` (R183). -/
def aluMultiply (a b : Word) : Word := wrap32 (a.toInt * b.toInt)

/-- `trunc(a / b)`: the exact quotient rounded toward zero, `s * ⌊|a| / |b|⌋` (R184). -/
def truncatedQuotient (a b : Int) : Int :=
  if a = 0 ∨ (0 < a ↔ 0 < b) then ((a.natAbs / b.natAbs : Nat) : Int) else -((a.natAbs / b.natAbs : Nat) : Int)

/-- The quotient of `Divide`, wrapped; none, for `DivideByZero`, when the divisor is 0 (R184). -/
def aluDivide (a b : Word) : Option Word :=
  if b = 0#32 then none else some (wrap32 (truncatedQuotient a.toInt b.toInt))

end Sys2Proof.Machine
end

