-- ==== Sys2Proof/Machine/Arithmetic.lean ====
section
/-! DEFINITION. Integer arithmetic (44_arithmetic.md): `Add`, `Subtract`, `Multiply`, `Divide`. Both sources are read
before `dest` is written (R113, R180). -/

namespace Sys2Proof.Machine

/-- `Add(dest, src1, src2)` (R181). -/
def execAdd (dest src1 src2 : Reg) (s : State) : Result :=
  .next ((s.setReg dest (aluAdd (s.reg src1) (s.reg src2))).advance 4)

/-- `Subtract(dest, src1, src2)` (R182): `src1` minus `src2`. -/
def execSubtract (dest src1 src2 : Reg) (s : State) : Result :=
  .next ((s.setReg dest (aluSubtract (s.reg src1) (s.reg src2))).advance 4)

/-- `Multiply(dest, src1, src2)` (R183). -/
def execMultiply (dest src1 src2 : Reg) (s : State) : Result :=
  .next ((s.setReg dest (aluMultiply (s.reg src1) (s.reg src2))).advance 4)

/-- `Divide(dest, src1, src2)` (R184): `src1` is the dividend, `src2` the divisor. -/
def execDivide (dest src1 src2 : Reg) (s : State) : Result :=
  match aluDivide (s.reg src1) (s.reg src2) with
  | none => raise .divideByZero s
  | some q => .next ((s.setReg dest q).advance 4)

end Sys2Proof.Machine
end

