-- ==== Sys2Proof/Machine/Control.lean ====
section
/-! DEFINITION. Control transfer (41_control.md): `Call`, `Ret`. Neither is followed by the advance of R114. -/

namespace Sys2Proof.Machine

/-- `Call(target)` (R130): push the address of the next instruction, then `pc <- target`, unchecked. -/
def execCall (target : Word) (s : State) : Result :=
  match s.pushCall (s.ip + 5) with
  | none => raise .stackOverflow s
  | some s' => .next (s'.setIp target)

/-- `Ret()` (R131): `pc <- CS.pop()`. -/
def execRet (s : State) : Result :=
  match s.popCall with
  | none => raise .stackUnderflow s
  | some (v, s') => .next (s'.setIp v)

end Sys2Proof.Machine
end

