-- ==== Sys2Proof/Machine/Operands.lean ====
section
/-! DEFINITION. The addressing modes of the data family (43_data.md R165) and the byte operands of the I/O family
(42_io_system.md R140, R141). Addresses are exact integers (20_memory.md R53). -/

namespace Sys2Proof.Machine

/-- The effective address of `Load` and `Store`: the immediate itself, an absolute offset into the data segment; no
base register, no scaling (R52, R165). -/
def absoluteAddress (addr : Word) : Int := addr.toInt

/-- The address `Push` writes: `Sp` before it is decremented (R162, R165). -/
def State.pushAddress (s : State) : Int := s.sp.toInt

/-- `Sp` after a `Push`, as an exact integer (R162). -/
def State.spAfterPush (s : State) : Int := s.sp.toInt - 4

/-- The address `Pop` reads, which is also `Sp` after it (R163, R165). -/
def State.popAddress (s : State) : Int := s.sp.toInt + 4

/-- The byte `WriteByte` sends: bits 7..0 of the register (R140). -/
def lowByte (v : Word) : Byte := v.extractLsb' 0 8

/-- The value `ReadByte` writes: the byte zero-extended, never sign-extended (R141). -/
def zeroExtendByte (b : Byte) : Word := b.setWidth 32

end Sys2Proof.Machine
end

