-- ==== Sys2Proof/Machine/Data.lean ====
section
/-! DEFINITION. Data movement (43_data.md): `Load`, `Store`, `Push`, `Pop`, `Fill`. -/

namespace Sys2Proof.Machine

/-- `Load(addr, reg)` (R160). -/
def execLoad (addr : Word) (reg : Reg) (s : State) : Result :=
  match s.readWord (absoluteAddress addr) with
  | none => raise .outOfBounds s
  | some v => .next ((s.setReg reg v).advance 6)

/-- `Store(reg, addr)` (R161). -/
def execStore (reg : Reg) (addr : Word) (s : State) : Result :=
  match s.writeWord (absoluteAddress addr) (s.reg reg) with
  | none => raise .outOfBounds s
  | some s' => .next (s'.advance 6)

/-- `Push(reg)` (R162): the bounds of the write at `Sp` are checked first, then whether `Sp - 4` stays in the data
region; only then is anything written (D13, D14). -/
def execPush (reg : Reg) (s : State) : Result :=
  match s.writeWord s.pushAddress (s.reg reg) with
  | none => raise .outOfBounds s
  | some s' =>
    if s.spAfterPush < 0 then raise .stackOverflow s
    else .next ((s'.setSp (s.sp - 4)).advance 2)

/-- `Pop(reg)` (R163): `Sp + 4` must be word-valid. -/
def execPop (reg : Reg) (s : State) : Result :=
  match s.readWord s.popAddress with
  | none => raise .stackUnderflow s
  | some v => .next (((s.setSp (s.sp + 4)).setReg reg v).advance 2)

/-- `Fill(value, reg)` (R164): no memory access. -/
def execFill (value : Word) (reg : Reg) (s : State) : Result :=
  .next ((s.setReg reg value).advance 6)

end Sys2Proof.Machine
end

