-- ==== Sys2Proof/Machine/System.lean ====
section
/-! DEFINITION. I/O and system instructions (42_io_system.md): `WriteByte`, `ReadByte`, `Debug`, `Exit`, `Nop`. None
of them can fault. -/

namespace Sys2Proof.Machine

/-- `WriteByte(reg)` (R140): send bits 7..0 of `x[reg]`. -/
def execWriteByte (reg : Reg) (s : State) : Result :=
  .next ((s.ioWrite (lowByte (s.reg reg))).advance 2)

/-- `ReadByte(reg)` (R141): with a byte there, the register write and the advance happen together; with none, the block
waits and nothing else changes (R33, log entry 7). -/
def execReadByte (reg : Reg) (s : State) : Result :=
  match s.ioRead with
  | none => .next (s.wait reg)
  | some (b, s') => .next ((s'.setReg reg (zeroExtendByte b)).advance 2)

/-- `Debug()` (R142): the snapshot is taken before the advance, so its `Ip` is this instruction's own address. -/
def execDebug (s : State) : Result :=
  .next ((s.debugEmit s.snapshot).advance 1)

/-- `Exit()` (R143): `Ip` advances like after any other instruction (R114, D17), then the block halts. -/
def execExit (s : State) : Result :=
  .next (s.advance 1).halt

/-- `Nop()` (R144). -/
def execNop (s : State) : Result :=
  .next (s.advance 1)

end Sys2Proof.Machine
end

