-- ==== Sys2Proof/Machine/Dispatch.lean ====
section
/-! DEFINITION. The dispatch of 40_step.md R113: exhaustive over all 16 variants. -/

namespace Sys2Proof.Machine

def exec (i : Instr) (s : State) : Host.Outcome State Fault Refusal :=
  match i with
  | .call target => Sys2Proof.Machine.execCall target s
  | .ret => Sys2Proof.Machine.execRet s
  | .writeByte reg => Sys2Proof.Machine.execWriteByte reg s
  | .readByte reg => Sys2Proof.Machine.execReadByte reg s
  | .debug => Sys2Proof.Machine.execDebug s
  | .exit => Sys2Proof.Machine.execExit s
  | .load addr reg => Sys2Proof.Machine.execLoad addr reg s
  | .store reg addr => Sys2Proof.Machine.execStore reg addr s
  | .push reg => Sys2Proof.Machine.execPush reg s
  | .pop reg => Sys2Proof.Machine.execPop reg s
  | .fill value reg => Sys2Proof.Machine.execFill value reg s
  | .nop => Sys2Proof.Machine.execNop s
  | .add dest src1 src2 => Sys2Proof.Machine.execAdd dest src1 src2 s
  | .subtract dest src1 src2 => Sys2Proof.Machine.execSubtract dest src1 src2 s
  | .multiply dest src1 src2 => Sys2Proof.Machine.execMultiply dest src1 src2 s
  | .divide dest src1 src2 => Sys2Proof.Machine.execDivide dest src1 src2 s

end Sys2Proof.Machine
end

