-- ==== Sys2Proof/Machine/Fetch.lean ====
section
/-! DEFINITION. Fetch and decode (40_step.md R111, R112, R119), and putting an instruction where the next step fetches
it, which stands for loading a program (log entries 4 and 11). -/

namespace Sys2Proof.Machine

/-- `Ip` lies in `[0, CLEN)`; the comparison is signed (R111, D2). -/
def State.ipInCode (s : State) : Prop := 0 ≤ s.ip.toInt ∧ s.ip.toInt < (s.code.size : Int)
deriving Decidable

/-- The code bytes from `Ip` on, at most as many as the longest instruction has and none past `CLEN - 1` (R51, R85,
log entry 12). -/
def State.fetchWindow (s : State) : List Byte :=
  s.code.bytes s.ip.toNat (min maxInstrLength (s.code.size - s.ip.toNat))

/-- The fetch and decode of a step: an instruction, or the fault that ends the step, the fetch check first (R119). -/
def State.nextInstr (s : State) : Except Fault Instr :=
  if s.ipInCode then
    match decode s.fetchWindow with
    | .instr i _ => .ok i
    | .unrecognizedOpcode _ => .error .invalidInstruction
    | .insufficientBytes => .error .invalidInstruction
  else .error .unableToFetch

/-- The code offset at which `placeBytes` puts `n` bytes: `Ip` where they fit below the largest CLEN, else 0. -/
def State.placeAt (s : State) (n : Nat) : Nat := if s.ip.toNat + n ≤ intMax then s.ip.toNat else 0

/-- The state with `bs` in the code segment where the next step fetches, the segment grown to hold them, and the block
running and not waiting, so that the next step fetches exactly there (log entry 11). -/
def State.placeBytes (s : State) (bs : List Byte) : State :=
  { s with
    ip := BitVec.ofNat 32 (s.placeAt bs.length)
    code := (s.code.grow (s.placeAt bs.length + bs.length)).writeBytes (s.placeAt bs.length) bs
    runState := .running
    waitingFor := none }

end Sys2Proof.Machine
end

