-- ==== Sys2Proof/Machine/Step.lean ====
section
/-! DEFINITION. One step (40_step.md R110 to R119). -/

namespace Sys2Proof.Machine

/-- A step: nothing happens once the run has ended (R117); a `ReadByte` that waits goes on waiting or completes (R33,
R141); otherwise one instruction is fetched, decoded and executed, or the fetch or the decode raises its fault. -/
def step (s : State) : Host.Outcome State Fault Refusal :=
  match s.runState with
  | .exited => .next s
  | .faulted _ => .next s
  | .running =>
    match s.waitingFor with
    | some r => exec (.readByte r) s
    | none =>
      match s.nextInstr with
      | .error k => raise k s
      | .ok i => exec i s

/-- The instruction word `w` of `nbits` bits, numbered as spec/opcode_table.json numbers it, stored where `step`
fetches its next instruction. -/
def State.withFetchWord (s : State) (nbits w : Nat) : State := s.placeBytes (tableWordBytes nbits w)

end Sys2Proof.Machine
end

