-- ==== Sys2Proof/Machine/Interface.lean ====
section
/-! DEFINITION. What the host sees of the block and does to it (60_exceptions.md R204, R224 to R226, 40_step.md R115).
Reset is `State.resetWith`, a step is `step`, and reading state is reading the fields of `State`. -/

namespace Sys2Proof.Machine

/-- The numeric code of a fault kind (R200, D16). -/
def Fault.code : Fault → Nat
  | .invalidInstruction => 1
  | .unableToFetch => 2
  | .outOfBounds => 3
  | .stackOverflow => 4
  | .stackUnderflow => 5
  | .divideByZero => 6

/-- The status the host reads: the pair (state code, fault code) (R204, D16). -/
def State.status (s : State) : Nat × Nat :=
  match s.runState with
  | .running => (0, 0)
  | .exited => (1, 0)
  | .faulted k => (2, k.code)

/-- What a step returns (R115). -/
inductive StepResult where
  | stateChange
  | exit
  | error (kind : Fault)
deriving DecidableEq, Repr

/-- The result of the step that left the block in this state; none while a `ReadByte` waits, whose step has not
returned (R116, log entry 7). Asked again after the run has ended, a step has the same result (R117). -/
def State.stepResult (s : State) : Option StepResult :=
  match s.runState with
  | .exited => some .exit
  | .faulted k => some (.error k)
  | .running =>
    match s.waitingFor with
    | some _ => none
    | none => some .stateChange

/-- The process exit code the host maps the outcome of a run to; none while the run has not ended (R226). A load failure,
where no run begins, has its own: `LoadResult.exitCode`. -/
def State.exitCode (s : State) : Option Nat :=
  match s.runState with
  | .running => none
  | .exited => some 0
  | .faulted _ => some 1

/-- The I/O capability supplies one more input byte, which it may do at any time between steps, or never (R225, I6). -/
def State.supplyByte (s : State) (b : Byte) : State := { s with input := s.input ++ [b] }

end Sys2Proof.Machine
end

