-- ==== Sys2Proof/WellFormed.lean ====
section
/-! DEFINITION. The checks the spec makes on terms: an instruction must lie inside the code segment (30_encoding.md
R87), the parameters and the loaded program keep the bounds of 00_scope.md R4 and of the loader (R241, R244).
An instruction's operands need no check: all 256 values of a register byte and all 2^32 of an immediate are legal
(R88), and the types of `Instr` hold exactly those. -/

namespace Sys2Proof

/-- The length of an instruction by counting its operands: "Every size equals 1 plus 4 per immediate plus 1 per
register operand" (R86). -/
def Instr.byteLength : Instr → Nat
  | .call _ => 1 + 4
  | .ret => 1
  | .writeByte _ => 1 + 1
  | .readByte _ => 1 + 1
  | .debug => 1
  | .exit => 1
  | .load _ _ => 1 + 4 + 1
  | .store _ _ => 1 + 1 + 4
  | .push _ => 1 + 1
  | .pop _ => 1 + 1
  | .fill _ _ => 1 + 4 + 1
  | .nop => 1
  | .add _ _ _ => 1 + 1 + 1 + 1
  | .subtract _ _ _ => 1 + 1 + 1 + 1
  | .multiply _ _ _ => 1 + 1 + 1 + 1
  | .divide _ _ _ => 1 + 1 + 1 + 1

/-- `i` placed at code offset `ip` lies wholly inside a code segment of `clen` bytes (R51, R87). -/
def Instr.wellFormedAt (i : Instr) (ip clen : Nat) : Bool := decide (ip + i.byteLength ≤ clen)

/-- STACK_BASE is at most 2^31 - 1; CALL_DEPTH_MAX may be any natural (R4). -/
def Params.wellFormed (p : Params) : Bool := decide (p.stackBase ≤ intMax)

/-- A symbol's name has a one-byte length and its offset lies in the code (R244). -/
def Symbol.wellFormed (clen : Nat) (y : Symbol) : Bool :=
  decide (y.name.length ≤ 255) && decide (0 ≤ y.codeOffset.toInt) && decide (y.codeOffset.toInt < clen)

/-- CLEN and DLEN are at most 2^31 - 1 (R4, D5), and the symbols are in range (R244). -/
def LoadedProgram.wellFormed (p : LoadedProgram) : Bool :=
  decide (p.code.length ≤ intMax) && decide (p.data.length ≤ intMax) &&
    p.symbols.all (Symbol.wellFormed p.code.length)

end Sys2Proof
end

