-- ==== Sys2Proof/Machine/Loader.lean ====
section
/-! DEFINITION. The loader's interface (70_reset_and_hazards.md R241 to R246): a byte buffer to a loaded program. The
loader is outside the block; the block sees only the code and data bytes. Where the spec gives the loader no behaviour
(91_not_in_source.md N13) the answer is `unspecified`, never a program (log entry 13). -/

namespace Sys2Proof.Machine

/-- The load-time errors, exactly three (R245). They are not faults of the block. -/
inductive LoadError where
  | invalidHeader
  | invalidSymbolTable
  | truncatedSection
deriving DecidableEq, Repr

/-- What loading a buffer answers. -/
inductive LoadResult where
  /-- The buffer loads. -/
  | loaded (p : LoadedProgram)
  /-- The buffer fails with a load-time error: fatal, no run begins (R246). -/
  | failed (e : LoadError)
  /-- The spec says nothing of such a buffer (N13, D5). -/
  | unspecified
deriving DecidableEq, Repr

/-- The header's length in bytes (R242). -/
def headerLength : Nat := 12

/-- Where a section that starts at `start` ends: at the next section's offset, or at the end of the buffer (R243, D30).
`after` holds the offsets of the sections that the header lists later, which follow at an equal offset, and `before`
those it lists earlier, which do not (log entry 14). -/
def sectionEnd (len start : Nat) (before after : List Nat) : Nat :=
  (before.filter (fun o => start < o) ++ after.filter (fun o => start ≤ o)).foldl min len

/-- The bytes `[a, b)` of a buffer. -/
def slice (buf : List Byte) (a b : Nat) : List Byte := (buf.drop a).take (b - a)

/-- The symbol table's entries (R244): none in `Except.error` is an entry the rule gives no outcome, `some e` a load
error. The first argument bounds the number of entries. -/
def parseSymbols (clen : Nat) : Nat → List Byte → Except (Option LoadError) (List Symbol)
  | _, [] => .ok []
  | 0, _ :: _ => .error none
  | fuel + 1, nameLen :: rest =>
    if rest.length < nameLen.toNat then .error (some .invalidSymbolTable)
    else
      match rest.drop nameLen.toNat with
      | b0 :: b1 :: b2 :: b3 :: more =>
        if 0 ≤ (wordOf b0 b1 b2 b3).toInt ∧ (wordOf b0 b1 b2 b3).toInt < (clen : Int) then
          match parseSymbols clen fuel more with
          | .ok ys => .ok ({ name := rest.take nameLen.toNat, codeOffset := wordOf b0 b1 b2 b3 } :: ys)
          | .error e => .error e
        else .error (some .invalidSymbolTable)
      | _ => .error none

/-- Load the sections at three offsets that lie in the buffer (R243, R244). -/
def loadSections (buf : List Byte) (symbolsAt dataAt codeAt : Nat) : LoadResult :=
  let symbolBytes := slice buf symbolsAt (sectionEnd buf.length symbolsAt [] [dataAt, codeAt])
  let data := slice buf dataAt (sectionEnd buf.length dataAt [symbolsAt] [codeAt])
  let code := slice buf codeAt (sectionEnd buf.length codeAt [symbolsAt, dataAt] [])
  if intMax < code.length ∨ intMax < data.length then .unspecified
  else
    match parseSymbols code.length symbolBytes.length symbolBytes with
    | .ok ys => .loaded { symbols := ys, code := code, data := data }
    | .error (some e) => .failed e
    | .error none => .unspecified

/-- Load a buffer (R242 to R245): the three big-endian offsets of the header, then the sections. -/
def loadImage (buf : List Byte) : LoadResult :=
  if buf.length < headerLength then .failed .invalidHeader
  else
    let symbolsAt := (immAt buf 0).toInt
    let dataAt := (immAt buf 4).toInt
    let codeAt := (immAt buf 8).toInt
    if symbolsAt < headerLength ∨ dataAt < headerLength ∨ codeAt < headerLength then .unspecified
    else if (buf.length : Int) < symbolsAt ∨ (buf.length : Int) < dataAt ∨ (buf.length : Int) < codeAt then
      .failed .truncatedSection
    else loadSections buf symbolsAt.toNat dataAt.toNat codeAt.toNat

/-- The process exit code the host maps a load to (R226, R246): 1 for a load failure; none where loading itself does not
end the process, which `State.exitCode` then answers for the run, or where the spec says nothing of the buffer. -/
def LoadResult.exitCode : LoadResult → Option Nat
  | .loaded _ => none
  | .failed _ => some 1
  | .unspecified => none

/-- The boot of R247: the block is reset with what the loader produced. None when loading did not produce a program:
the block is then not reset and no step occurs (R246). -/
def bootImage (p : Params) (buf : List Byte) : Option State :=
  match loadImage buf with
  | .loaded prog => some (State.resetWith p prog)
  | .failed _ => none
  | .unspecified => none

end Sys2Proof.Machine
end

