-- ==== Sys2Proof/Safety.lean ====
section
/-! DEFINITION. The terms the statements use, each written from the spec and not from the meanings: the bytes decoding
reads, the tables of R22, R86, R165 and R200, the byte order of R56, the image layout of R242 to R244, the invariant of
every run, and ended, waiting and beginning steps. -/

namespace Sys2Proof.Machine

/-! ## Bytes and tables -/

/-- A word's four bytes, most significant first, by division (R56). -/
def bigEndianBytes (v : Word) : List Byte :=
  [BitVec.ofNat 8 (v.toNat / 2 ^ 24), BitVec.ofNat 8 (v.toNat / 2 ^ 16), BitVec.ofNat 8 (v.toNat / 2 ^ 8),
    BitVec.ofNat 8 v.toNat]

/-- The unsigned value of four bytes read big-endian (R54, R84). -/
def bigEndianValue (b0 b1 b2 b3 : Byte) : Nat :=
  b0.toNat * 2 ^ 24 + b1.toNat * 2 ^ 16 + b2.toNat * 2 ^ 8 + b3.toNat

/-- The size column of R86, for the opcodes 0 to 15. -/
def sizeColumn : List Nat := [5, 1, 2, 2, 1, 1, 6, 6, 2, 2, 6, 1, 4, 4, 4, 4]

end Sys2Proof.Machine

namespace Sys2Proof

open Sys2Proof.Machine

/-- The "writes" column of R22: the general-purpose register an instruction writes. -/
def Instr.destination : Instr → Option Reg
  | .call _ => none
  | .ret => none
  | .writeByte _ => none
  | .readByte reg => some reg
  | .debug => none
  | .exit => none
  | .load _ reg => some reg
  | .store _ _ => none
  | .push _ => none
  | .pop reg => some reg
  | .fill _ reg => some reg
  | .nop => none
  | .add dest _ _ => some dest
  | .subtract dest _ _ => some dest
  | .multiply dest _ _ => some dest
  | .divide dest _ _ => some dest

/-- The "reads" column of R22: whether an instruction reads register `r`. -/
def Instr.readsReg (r : Reg) : Instr → Bool
  | .call _ => false
  | .ret => false
  | .writeByte reg => r == reg
  | .readByte _ => false
  | .debug => true
  | .exit => false
  | .load _ _ => false
  | .store reg _ => r == reg
  | .push reg => r == reg
  | .pop _ => false
  | .fill _ _ => false
  | .nop => false
  | .add _ src1 src2 => r == src1 || r == src2
  | .subtract _ src1 src2 => r == src1 || r == src2
  | .multiply _ src1 src2 => r == src1 || r == src2
  | .divide _ src1 src2 => r == src1 || r == src2

/-- The data offset at which an instruction stores a word, none for an instruction that stores nothing (R165). -/
def Instr.storeAddress (s : State) : Instr → Option Int
  | .call _ => none
  | .ret => none
  | .writeByte _ => none
  | .readByte _ => none
  | .debug => none
  | .exit => none
  | .load _ _ => none
  | .store _ addr => some (absoluteAddress addr)
  | .push _ => some s.pushAddress
  | .pop _ => none
  | .fill _ _ => none
  | .nop => none
  | .add _ _ _ => none
  | .subtract _ _ _ => none
  | .multiply _ _ _ => none
  | .divide _ _ _ => none

end Sys2Proof

namespace Sys2Proof.Machine

/-! ## Steps -/

/-- The code bytes from `Ip` to the end of the code segment, `code[Ip:]` (R85, R112). -/
def State.codeFrom (s : State) : List Byte := s.code.bytes s.ip.toNat (s.code.size - s.ip.toNat)

/-- A step may begin: the block is running and not waiting (R110). -/
abbrev State.ready (s : State) : Prop := s.runState = .running ∧ s.waitingFor = none

/-- The run has ended (R226). -/
abbrev State.ended (s : State) : Prop := s.runState ≠ .running

/-- The block waits for an input byte that has not been supplied (R33, R141). -/
abbrev State.starved (s : State) : Prop := s.runState = .running ∧ s.waitingFor ≠ none ∧ s.input = []

/-- The step that begins in this state executes `i` (R110 to R113). -/
def State.executes (s : State) (i : Instr) : Prop :=
  s.ready ∧ s.ipInCode ∧ ∃ n, decode s.codeFrom = .instr i n

/-- The cause column of R200, for a step that begins in this state: when it raises a fault of each kind, by the
order of R205. -/
def State.faultCause (s : State) : Fault → Prop
  | .unableToFetch => ¬ s.ipInCode
  | .invalidInstruction =>
    s.ipInCode ∧ (16 ≤ (s.code.read s.ip.toNat).toNat ∨
      s.code.size - s.ip.toNat < sizeColumn.getD (s.code.read s.ip.toNat).toNat 0)
  | .outOfBounds =>
    (∃ addr r, s.executes (.load addr r) ∧ ¬ s.data.wordValid addr.toInt) ∨
      (∃ r addr, s.executes (.store r addr) ∧ ¬ s.data.wordValid addr.toInt) ∨
        ∃ r, s.executes (.push r) ∧ ¬ s.data.wordValid s.sp.toInt
  | .stackOverflow =>
    (∃ target, s.executes (.call target) ∧ s.callStack.length = s.params.callDepthMax) ∨
      ∃ r, s.executes (.push r) ∧ s.data.wordValid s.sp.toInt ∧ s.sp.toInt < 4
  | .stackUnderflow =>
    (s.executes .ret ∧ s.callStack = []) ∨ ∃ r, s.executes (.pop r) ∧ ¬ s.data.wordValid (s.sp.toInt + 4)
  | .divideByZero => ∃ d a b, s.executes (.divide d a b) ∧ s.reg b = 0#32

/-! ## The invariant of a run -/

/-- What a run keeps (R24 to R33): both segments in canonical form and within the bounds of R4; at most CALL_DEPTH_MAX
entries on the call stack (R28), each in `[5, CLEN]` (R29); `Sp` at STACK_BASE or word-valid (R26); `Bp` at STACK_BASE
(R27); and a wait only while running, in the `ReadByte` at `Ip` (R33). -/
structure State.Inv (s : State) : Prop where
  codeWf : s.code.wf
  dataWf : s.data.wf
  codeBound : s.code.size ≤ intMax
  dataBound : s.data.size ≤ intMax
  baseBound : s.params.stackBase ≤ intMax
  depth : s.callStack.length ≤ s.params.callDepthMax
  returns : ∀ v ∈ s.callStack, 5 ≤ v.toInt ∧ v.toInt ≤ (s.code.size : Int)
  spInRegion : s.sp = BitVec.ofNat 32 s.params.stackBase ∨ s.data.wordValid s.sp.toInt
  bpFixed : s.bp = BitVec.ofNat 32 s.params.stackBase
  waitInReadByte : ∀ r, s.waitingFor = some r → s.runState = .running ∧ s.nextInstr = .ok (.readByte r)

/-! ## Images -/

/-- The bytes of a symbol table (R244). -/
def symbolTableBytes : List Symbol → List Byte
  | [] => []
  | y :: ys => BitVec.ofNat 8 y.name.length :: (y.name ++ bigEndianBytes y.codeOffset ++ symbolTableBytes ys)

/-- The image of a program in the layout the source draws: header, symbol table, data, code (R242, R243). -/
def imageOf (p : LoadedProgram) : List Byte :=
  let table := symbolTableBytes p.symbols
  bigEndianBytes (BitVec.ofNat 32 headerLength) ++
    bigEndianBytes (BitVec.ofNat 32 (headerLength + table.length)) ++
    bigEndianBytes (BitVec.ofNat 32 (headerLength + table.length + p.data.length)) ++ table ++ p.data ++ p.code

end Sys2Proof.Machine
end

