-- ==== Sys2Proof/Certificates/Slice0/Obligations.lean ====
section
/-! DEFINITION. The statements for the provers, each from a numbered rule of spec/ or derived from its sections. -/

open Sys2Proof Sys2Proof.Machine

/-! ## Encoding -/

/-- A few words written out bit by bit from R81, R86: the decoder reads the instructions they stand for (W8, W9, D4,
D9, D11, D14), also through the opcode table's numbering of bits. -/
def Obligations.WrittenOutWordsDecode : Prop :=
  decode [0x06, 0x00, 0x00, 0x00, 0x0C, 0xFF] = .instr (.load 12 255) 6 ∧
  decode [0x01, 0x07, 0x07] = .instr .ret 1 ∧
  decode [0x07, 0x02, 0x80, 0x00, 0x00, 0x00] = .instr (.store 2 0x80000000) 6 ∧
  decode [0x0A, 0x7F, 0xFF, 0xFF, 0xFF, 0x10] = .instr (.fill 2147483647 16) 6 ∧
  decode [0x0F, 0x05, 0x04, 0x00] = .instr (.divide 5 4 0) 4 ∧
  decode [0x00, 0xFF, 0xFF, 0xFF, 0xFF] = .instr (.call (-1)) 5 ∧
  decodeTableWord 32 0x0302010C = some (.add 1 2 3) ∧
  decodeTableWord 48 0xFF0C00000006 = some (.load 12 255)

/-- R90: encoding writes the opcode byte and then each operand in the order of R86, a register as its index byte and an
immediate as its four big-endian bytes, and decoding the encoding of any instruction returns it and its size. -/
def Obligations.DecodingInvertsEncoding : Prop :=
  (∀ i : Instr, decode (encode i) = .instr i i.size) ∧
  (∀ t, encode (.call t) = 0 :: bigEndianBytes t) ∧
  encode .ret = [1] ∧
  (∀ r : Reg, encode (.writeByte r) = [2, BitVec.ofNat 8 r]) ∧
  (∀ r : Reg, encode (.readByte r) = [3, BitVec.ofNat 8 r]) ∧
  encode .debug = [4] ∧
  encode .exit = [5] ∧
  (∀ a, ∀ r : Reg, encode (.load a r) = 6 :: (bigEndianBytes a ++ [BitVec.ofNat 8 r])) ∧
  (∀ r : Reg, ∀ a, encode (.store r a) = 7 :: BitVec.ofNat 8 r :: bigEndianBytes a) ∧
  (∀ r : Reg, encode (.push r) = [8, BitVec.ofNat 8 r]) ∧
  (∀ r : Reg, encode (.pop r) = [9, BitVec.ofNat 8 r]) ∧
  (∀ v, ∀ r : Reg, encode (.fill v r) = 10 :: (bigEndianBytes v ++ [BitVec.ofNat 8 r])) ∧
  encode .nop = [11] ∧
  (∀ d a b : Reg, encode (.add d a b) = [12, BitVec.ofNat 8 d, BitVec.ofNat 8 a, BitVec.ofNat 8 b]) ∧
  (∀ d a b : Reg, encode (.subtract d a b) = [13, BitVec.ofNat 8 d, BitVec.ofNat 8 a, BitVec.ofNat 8 b]) ∧
  (∀ d a b : Reg, encode (.multiply d a b) = [14, BitVec.ofNat 8 d, BitVec.ofNat 8 a, BitVec.ofNat 8 b]) ∧
  (∀ d a b : Reg, encode (.divide d a b) = [15, BitVec.ofNat 8 d, BitVec.ofNat 8 a, BitVec.ofNat 8 b])

/-- The other direction, with any tail: bytes decode to an instruction exactly when they begin with its encoding, so
each byte string has at most one meaning and the bytes after an instruction do not matter (R85, R90, R91). -/
def Obligations.DecodesExactlyTheEncodings : Prop :=
  ∀ (bs : List Byte) (i : Instr) (n : Nat),
    decode bs = .instr i n ↔ n = i.size ∧ ∃ tail, bs = encode i ++ tail

/-- R86: every instruction's size is the size column's entry for its opcode, and "every size equals 1 plus 4 per
immediate plus 1 per register operand". -/
def Obligations.SizesFollowTheOpcodeMap : Prop :=
  ∀ i : Instr, i.opcode < 16 ∧ i.size = sizeColumn.getD i.opcode 0 ∧ i.size = i.byteLength ∧
    (encode i).length = i.size

/-- R87, R112: at an `Ip` inside the code, a step raises InvalidInstruction, changing only `RS`, exactly when the opcode
byte is 16 to 255 or fewer than `SIZE[op]` bytes are left; every other byte string decodes, to an instruction of that
opcode and size. -/
def Obligations.UndecodableBytesFault : Prop :=
  ∀ s : State, s.ready → s.ipInCode →
    let op := (s.code.read s.ip.toNat).toNat
    let left := s.code.size - s.ip.toNat
    if 16 ≤ op ∨ left < sizeColumn.getD op 0 then
      step s = .next { s with runState := .faulted .invalidInstruction } ∧ ∀ i, ¬ s.executes i
    else ∃ i, s.executes i ∧ i.opcode = op ∧ i.size = sizeColumn.getD op 0

/-! ## The step -/

/-- R111: with `Ip` negative or at or past CLEN the step raises UnableToFetch and changes only `RS`; with an empty code
segment the first step does. -/
def Obligations.FetchOutsideCodeFaults : Prop :=
  (∀ s : State, s.ready → (s.ip.toInt < 0 ∨ (s.code.size : Int) ≤ s.ip.toInt) →
    step s = .next { s with runState := .faulted .unableToFetch }) ∧
  ∀ (p : Params) (prog : LoadedProgram), prog.code = [] →
    step (State.resetWith p prog) = .next { State.resetWith p prog with runState := .faulted .unableToFetch }

/-- A step that begins where the bytes at `Ip` decode to `i` runs exactly `i`, which lies inside the code; the advance
of `Ip` is in `exec` (R85, R110, R113). The second clause is the model's own choice, log entry 7: while a `ReadByte` waits, a
model step runs that `ReadByte` again with no new fetch. By R110 no step of the spec begins then: it goes on with the one
that waits. -/
def Obligations.StepRunsTheDecodedInstruction : Prop :=
  (∀ (s : State) (i : Instr), s.executes i → step s = exec i s ∧ i.wellFormedAt s.ip.toNat s.code.size = true) ∧
  ∀ (s : State) (r : Reg), s.runState = .running → s.waitingFor = some r → step s = exec (.readByte r) s

/-- The interface's convention (log entry 11): after `withFetchWord` the very next step runs the instruction that the
decoder reads from the word. -/
def Obligations.FetchWordRunsNext : Prop :=
  ∀ (s : State) (nbits w : Nat) (i : Instr), s.code.wf → decodeTableWord nbits w = some i →
    step (s.withFetchWord nbits w) = exec i (s.withFetchWord nbits w)

/-- Every state, instruction and operand has exactly one outcome, a next state: no step and no instruction of this model
ends in a fault or a refusal of the interface (a fault of the block is a next state, log entry 1). -/
def Obligations.EveryStepAnswersANextState : Prop :=
  (∀ (i : Instr) (s : State), ∃ t, exec i s = .next t) ∧ ∀ s : State, ∃ t, step s = .next t

/-- R202, R117: once the run has ended no step occurs: however many more steps are asked for, the state stays and the
result is the same terminal one. -/
def Obligations.EndedRunsStay : Prop :=
  ∀ (s : State) (n : Nat), s.ended →
    Host.Core.run Sys2Proof.core n s = .next s ∧
      (s.stepResult = some .exit ∨ ∃ k, s.stepResult = some (.error k))

/-- R115: of a step that begins, the result is Exit exactly when the instruction is `Exit`, Error(K) exactly when the
cause of K holds, and StateChange exactly when the instruction completed with the block still running; `RS` says the
same; after Exit or Error(K) the block takes no further step. -/
def Obligations.StepResultsSayWhatHappened : Prop :=
  ∀ s t : State, s.ready → step s = .next t →
    (t.stepResult = some .exit ↔ s.executes .exit) ∧
    (t.stepResult = some .exit ↔ t.runState = .exited) ∧
    (∀ k, t.stepResult = some (.error k) ↔ s.faultCause k) ∧
    (∀ k, t.stepResult = some (.error k) ↔ t.runState = .faulted k) ∧
    (t.stepResult = some .stateChange ↔ t.ready) ∧
    (t.stepResult = some .exit ∨ (∃ k, t.stepResult = some (.error k)) → step t = .next t)

/-- R114: an instruction that raises no fault and is not `Call` or `Ret` advances `Ip` by its size, `Exit` too; `Call`
and `Ret` set `Ip`; one that raises a fault, and a `ReadByte` that waits, leaves `Ip`. -/
def Obligations.IpAdvancesByTheSize : Prop :=
  ∀ (i : Instr) (s t : State), s.ready → exec i s = .next t →
    ((∃ k, t.runState = .faulted k) → t.ip = s.ip) ∧
    (t.waitingFor ≠ none → t.ip = s.ip) ∧
    ((∀ k, t.runState ≠ .faulted k) → t.waitingFor = none →
      (∀ target, i = .call target → t.ip = target) ∧
      (i = .ret → s.callStack.getLast? = some t.ip) ∧
      ((∀ target, i ≠ .call target) → i ≠ .ret → t.ip = s.ip + BitVec.ofNat 32 (sizeColumn.getD i.opcode 0)))

/-- `Ip` never wraps around: in a state of a run, the address after the instruction at `Ip` is the exact sum, and at
most CLEN (R25). -/
def Obligations.IpNeverWraps : Prop :=
  ∀ (s : State) (i : Instr), s.Inv → s.executes i →
    (s.ip + BitVec.ofNat 32 i.size).toInt = s.ip.toInt + i.size ∧ s.ip.toInt + i.size ≤ (s.code.size : Int)

/-! ## Control transfer -/

/-- R130: `Call` on a full call stack raises StackOverflow and changes nothing else; otherwise it pushes `Ip + 5` and
sets `Ip` to the target, unchecked: a target outside the code succeeds here and the next step raises UnableToFetch. -/
def Obligations.CallPushesTheReturnAddress : Prop :=
  ∀ (target : Word) (s : State),
    encode (.call target) = 0 :: bigEndianBytes target ∧
    (s.callStack.length = s.params.callDepthMax →
      exec (.call target) s = .next { s with runState := .faulted .stackOverflow }) ∧
    (s.callStack.length ≠ s.params.callDepthMax →
      exec (.call target) s = .next { s with callStack := s.callStack ++ [s.ip + 5], ip := target } ∧
      (s.ready → (target.toInt < 0 ∨ (s.code.size : Int) ≤ target.toInt) →
        step { s with callStack := s.callStack ++ [s.ip + 5], ip := target } =
          .next { s with
            callStack := s.callStack ++ [s.ip + 5], ip := target, runState := .faulted .unableToFetch }))

/-- R131: `Ret` on an empty call stack raises StackUnderflow and changes nothing else; otherwise `Ip` takes the entry
pushed last, which is removed. -/
def Obligations.RetPopsTheReturnAddress : Prop :=
  encode .ret = [1] ∧
  (∀ s : State, s.callStack = [] → exec .ret s = .next { s with runState := .faulted .stackUnderflow }) ∧
  ∀ (s : State) (rest : List Word) (v : Word), s.callStack = rest ++ [v] →
    exec .ret s = .next { s with callStack := rest, ip := v }

/-- "A `Call` immediately followed eventually by a matching `Ret` restores `Ip` to the instruction following the
original `Call`" (W5): whatever happens in between, as long as the call stack is again as the `Call` left it. -/
def Obligations.MatchingRetReturnsAfterTheCall : Prop :=
  ∀ (target : Word) (s t u v : State), s.callStack.length ≠ s.params.callDepthMax →
    exec (.call target) s = .next t → u.callStack = t.callStack → exec .ret u = .next v →
      v.ip = s.ip + BitVec.ofNat 32 (Instr.call target).size ∧ v.callStack = s.callStack ∧ v.runState = u.runState

/-! ## I/O and system -/

/-- R140: `WriteByte` sends exactly the low 8 bits of the register, cannot fail, and changes nothing else but `Ip`. -/
def Obligations.WriteByteSendsTheLowByte : Prop :=
  ∀ (r : Reg) (s : State), encode (.writeByte r) = [2, BitVec.ofNat 8 r] ∧
    ∃ b : Byte, (b.toNat : Int) = (s.reg r).toInt % 256 ∧
      exec (.writeByte r) s = .next { s with output := s.output ++ [b], ip := s.ip + 2 }

/-- R141: with a byte supplied, `ReadByte` consumes it, writes it zero-extended and advances, all at once; with none it
waits and changes nothing else, for as long as none is supplied, and completes when one is. -/
def Obligations.ReadByteWaitsThenWritesTheByte : Prop :=
  (∀ r : Reg, encode (.readByte r) = [3, BitVec.ofNat 8 r]) ∧
  (∀ (r : Reg) (s : State) (b : Byte) (rest : List Byte), s.input = b :: rest →
    ∃ v : Word, v.toInt = (b.toNat : Int) ∧
      exec (.readByte r) s =
        .next { s with regs := s.regs.set r v, ip := s.ip + 2, input := rest, waitingFor := none }) ∧
  (∀ (r : Reg) (s : State), s.input = [] → exec (.readByte r) s = .next { s with waitingFor := some r }) ∧
  (∀ (s : State) (n : Nat), s.starved → Host.Core.run Sys2Proof.core n s = .next s) ∧
  ∀ (r : Reg) (s : State) (b : Byte), s.starved → s.waitingFor = some r →
    ∃ v : Word, v.toInt = (b.toNat : Int) ∧
      step (s.supplyByte b) =
        .next { s with regs := s.regs.set r v, ip := s.ip + 2, input := [], waitingFor := none }

/-- R142: `Debug` sends one snapshot with its own address, `Sp`, `Bp` and all registers, and changes nothing else but
`Ip`. -/
def Obligations.DebugSendsASnapshot : Prop :=
  encode .debug = [4] ∧
  ∀ s : State, exec .debug s =
    .next { s with snapshots := s.snapshots ++ [⟨s.ip, s.sp, s.bp, s.regs⟩], ip := s.ip + 1 }

/-- R143: `Exit` advances `Ip` by 1 and halts the block cleanly, whatever the call stack holds; nothing else changes and
the step's result is Exit, which the host maps to exit code 0. -/
def Obligations.ExitHaltsCleanly : Prop :=
  encode .exit = [5] ∧
  ∀ s : State, exec .exit s = .next { s with ip := s.ip + 1, runState := .exited } ∧
    ({ s with ip := s.ip + 1, runState := .exited } : State).stepResult = some .exit ∧
    ({ s with ip := s.ip + 1, runState := .exited } : State).exitCode = some 0

/-- R144: the only effect of `Nop` is the advance of `Ip`. -/
def Obligations.NopOnlyAdvances : Prop :=
  encode .nop = [11] ∧ ∀ s : State, exec .nop s = .next { s with ip := s.ip + 1 }

/-- R221, R222: a step sends one byte exactly when it executes a `WriteByte`, and takes one byte, the oldest supplied,
exactly when it completes a `ReadByte`; so bytes go out and come in in program order. With no byte supplied a `ReadByte`
that waits goes on waiting. -/
def Obligations.TransfersFollowProgramOrder : Prop :=
  ∀ s t : State, step s = .next t →
    (∀ r, s.executes (.writeByte r) → t.output = s.output ++ [BitVec.ofNat 8 (s.reg r).toNat]) ∧
    ((∀ r, ¬ s.executes (.writeByte r)) → t.output = s.output) ∧
    (∀ r b rest, (s.executes (.readByte r) ∨ (s.runState = .running ∧ s.waitingFor = some r)) → s.input = b :: rest →
      t.input = rest ∧ (t.reg r).toNat = b.toNat) ∧
    ((∀ r, ¬ s.executes (.readByte r) ∧ ¬ (s.runState = .running ∧ s.waitingFor = some r)) → t.input = s.input) ∧
    (s.starved → t = s)

/-- R223: a step sends one snapshot (`Ip`, `Sp`, `Bp`, all registers) exactly when it executes a `Debug`; and neither the
sink nor the output side gives anything back: with any other bytes sent and snapshots sent before it, the same step
sends the same and leaves everything else the same. -/
def Obligations.TheDiagnosticSinkGivesNothingBack : Prop :=
  ∀ (s t : State) (sent : List Byte) (taken : List Snapshot), step s = .next t →
    ∃ (bytes : List Byte) (snaps : List Snapshot),
      t.output = s.output ++ bytes ∧ t.snapshots = s.snapshots ++ snaps ∧
      (s.executes .debug → snaps = [⟨s.ip, s.sp, s.bp, s.regs⟩]) ∧ (¬ s.executes .debug → snaps = []) ∧
      step { s with output := sent, snapshots := taken } =
        .next { t with output := sent ++ bytes, snapshots := taken ++ snaps }

/-- R33: after reset the block is ready; only a `ReadByte` with no byte supplied makes it wait, and while the wait lasts
nothing differs from the state in which that `ReadByte` began. -/
def Obligations.OnlyReadByteWaits : Prop :=
  (∀ (p : Params) (prog : LoadedProgram), (State.resetWith p prog).ready) ∧
  (∀ s t : State, s.ready → step s = .next t → t.waitingFor ≠ none →
    ∃ r, s.executes (.readByte r) ∧ s.input = [] ∧ t = { s with waitingFor := some r }) ∧
  ∀ s : State, s.starved → step s = .next s

/-! ## Data movement -/

/-- R160: `Load` writes the big-endian word at the absolute offset; OutOfBounds, with nothing else changed, when the
offset is not word-valid. -/
def Obligations.LoadReadsTheWord : Prop :=
  ∀ (addr : Word) (r : Reg) (s : State),
    encode (.load addr r) = 6 :: (bigEndianBytes addr ++ [BitVec.ofNat 8 r]) ∧
    (¬ (0 ≤ addr.toInt ∧ addr.toInt + 4 ≤ (s.data.size : Int)) →
      exec (.load addr r) s = .next { s with runState := .faulted .outOfBounds }) ∧
    (0 ≤ addr.toInt → addr.toInt + 4 ≤ (s.data.size : Int) →
      ∃ v : Word,
        v.toNat = bigEndianValue (s.data.read addr.toNat) (s.data.read (addr.toNat + 1))
          (s.data.read (addr.toNat + 2)) (s.data.read (addr.toNat + 3)) ∧
        exec (.load addr r) s = .next { s with regs := s.regs.set r v, ip := s.ip + 6 })

/-- R161: `Store` puts the register's four bytes, most significant first, at the absolute offset, and no other byte
changes; OutOfBounds, with nothing else changed, when the offset is not word-valid. The canonical form of the data
segment is a premise (`StepKeepsTheInvariant` keeps it). -/
def Obligations.StoreWritesTheWord : Prop :=
  ∀ (r : Reg) (addr : Word) (s : State),
    encode (.store r addr) = 7 :: BitVec.ofNat 8 r :: bigEndianBytes addr ∧
    (¬ (0 ≤ addr.toInt ∧ addr.toInt + 4 ≤ (s.data.size : Int)) →
      exec (.store r addr) s = .next { s with runState := .faulted .outOfBounds }) ∧
    (0 ≤ addr.toInt → addr.toInt + 4 ≤ (s.data.size : Int) → s.data.wf →
      ∃ m : Memory, exec (.store r addr) s = .next { s with data := m, ip := s.ip + 6 } ∧
        m.size = s.data.size ∧
        (∀ k, k < 4 → m.read (addr.toNat + k) = (bigEndianBytes (s.reg r)).getD k 0) ∧
        ∀ a, (a < addr.toNat ∨ addr.toNat + 4 ≤ a) → m.read a = s.data.read a)

/-- R162: `Push` checks that `Sp` is word-valid (OutOfBounds), then that `Sp - 4` is not negative (StackOverflow), each
before any change; otherwise it writes the register's word at `Sp` and then lowers `Sp` by 4. The canonical form of the
data segment is a premise (`StepKeepsTheInvariant` keeps it). -/
def Obligations.PushWritesThenLowersSp : Prop :=
  ∀ (r : Reg) (s : State),
    encode (.push r) = [8, BitVec.ofNat 8 r] ∧
    (¬ (0 ≤ s.sp.toInt ∧ s.sp.toInt + 4 ≤ (s.data.size : Int)) →
      exec (.push r) s = .next { s with runState := .faulted .outOfBounds }) ∧
    (0 ≤ s.sp.toInt → s.sp.toInt + 4 ≤ (s.data.size : Int) → s.sp.toInt < 4 →
      exec (.push r) s = .next { s with runState := .faulted .stackOverflow }) ∧
    (4 ≤ s.sp.toInt → s.sp.toInt + 4 ≤ (s.data.size : Int) → s.data.wf →
      ∃ (m : Memory) (sp : Word), sp.toInt = s.sp.toInt - 4 ∧
        exec (.push r) s = .next { s with data := m, sp := sp, ip := s.ip + 2 } ∧
        m.size = s.data.size ∧
        (∀ k, k < 4 → m.read (s.sp.toNat + k) = (bigEndianBytes (s.reg r)).getD k 0) ∧
        ∀ a, (a < s.sp.toNat ∨ s.sp.toNat + 4 ≤ a) → m.read a = s.data.read a)

/-- R163: `Pop` raises StackUnderflow, changing nothing else, when `Sp + 4` is not word-valid; otherwise it raises `Sp`
by 4 and writes the word there to the register. -/
def Obligations.PopRaisesSpThenReads : Prop :=
  ∀ (r : Reg) (s : State),
    encode (.pop r) = [9, BitVec.ofNat 8 r] ∧
    (¬ (0 ≤ s.sp.toInt + 4 ∧ s.sp.toInt + 8 ≤ (s.data.size : Int)) →
      exec (.pop r) s = .next { s with runState := .faulted .stackUnderflow }) ∧
    (0 ≤ s.sp.toInt + 4 → s.sp.toInt + 8 ≤ (s.data.size : Int) → s.data.size ≤ intMax →
      ∃ v sp : Word, sp.toInt = s.sp.toInt + 4 ∧
        v.toNat = bigEndianValue (s.data.read sp.toNat) (s.data.read (sp.toNat + 1))
          (s.data.read (sp.toNat + 2)) (s.data.read (sp.toNat + 3)) ∧
        exec (.pop r) s = .next { s with regs := s.regs.set r v, sp := sp, ip := s.ip + 2 })

/-- R164: `Fill` writes its immediate and nothing else but `Ip`; every 32-bit value is accepted. -/
def Obligations.FillWritesTheImmediate : Prop :=
  ∀ (value : Word) (r : Reg) (s : State),
    encode (.fill value r) = 10 :: (bigEndianBytes value ++ [BitVec.ofNat 8 r]) ∧
    exec (.fill value r) s = .next { s with regs := s.regs.set r value, ip := s.ip + 6 }

/-- W6, R163: a completed `Push(r)` followed by `Pop(q)` puts the old `x[r]` in `x[q]`, and `Sp` and every other register
are as before; with `q = r` every register is. -/
def Obligations.PopUndoesPush : Prop :=
  ∀ (r q : Reg) (s t u : State), s.Inv → s.runState = .running → exec (.push r) s = .next t → t.runState = .running →
    exec (.pop q) t = .next u →
      u.runState = .running ∧ u.sp = s.sp ∧ u.reg q = s.reg r ∧ (∀ p, p ≠ q → u.reg p = s.reg p) ∧
        (q = r → u.regs = s.regs)

/-- R162(b): from a word-valid `Sp`, exactly `⌊Sp / 4⌋` pushes succeed, each lowering `Sp` by 4, whatever they push; the
next raises StackOverflow. -/
def Obligations.OperandStackHoldsAQuarterOfSp : Prop :=
  ∀ (rs : List Reg) (s : State), s.runState = .running → s.data.wordValid s.sp.toInt →
    (rs.length ≤ s.sp.toNat / 4 →
      ∃ t, rs.foldl (fun o r => o.bind (fun u => nextState (exec (.push r) u))) (some s) = some t ∧
        t.runState = .running ∧ t.sp.toNat = s.sp.toNat - 4 * rs.length ∧
        (rs.length = s.sp.toNat / 4 → ∀ r, exec (.push r) t = .next { t with runState := .faulted .stackOverflow }))

/-- R57, R62, R67: after a completed `Store` the byte that any word access sees at an offset is the byte of the stored
word where the offset is inside it, and the byte from before elsewhere; so a `Load` of the same offset gives the register
back, and overlapping words are composed byte by byte. -/
def Obligations.LoadsSeeTheLatestStore : Prop :=
  ∀ (r q : Reg) (addr addr' : Word) (s t u : State), s.data.wf → s.runState = .running →
    exec (.store r addr) s = .next t → t.runState = .running →
    exec (.load addr' q) t = .next u → u.runState = .running →
      (addr' = addr → u.reg q = s.reg r) ∧
      (u.reg q).toNat =
        (let byte := fun k =>
          if addr.toNat ≤ addr'.toNat + k ∧ addr'.toNat + k < addr.toNat + 4 then
            (bigEndianBytes (s.reg r)).getD (addr'.toNat + k - addr.toNat) 0
          else s.data.read (addr'.toNat + k)
        bigEndianValue (byte 0) (byte 1) (byte 2) (byte 3))

/-- R53 to R55, R31: a word write keeps the canonical form and the size of a segment, and two canonical segments of one
size whose bytes are equal are equal data. -/
def Obligations.SegmentsStayCanonical : Prop :=
  (∀ (m n : Memory) (a : Int) (v : Word), m.wf → m.writeWord a v = some n → n.wf ∧ n.size = m.size) ∧
  (∀ bs : List Byte, (Memory.ofBytes bs).wf ∧ (Memory.ofBytes bs).bytes 0 bs.length = bs) ∧
  ∀ m n : Memory, m.wf → n.wf → m.size = n.size → (∀ a, a < m.size → m.read a = n.read a) → m = n

/-! ## Integer arithmetic -/

/-- R180 to R183: `Add`, `Subtract` and `Multiply` write to `dest` the `i32` congruent modulo 2^32 to the exact result
of the old values of the sources, never fault, and change nothing else but `Ip`; the low 32 bits of a product are the
same for signed and unsigned operands. -/
def Obligations.AddSubtractMultiplyWrap : Prop :=
  ∀ (d a b : Reg) (s : State),
    (encode (.add d a b) = [12, BitVec.ofNat 8 d, BitVec.ofNat 8 a, BitVec.ofNat 8 b] ∧
      ∃ v : Word, v.toInt % 2 ^ 32 = ((s.reg a).toInt + (s.reg b).toInt) % 2 ^ 32 ∧
        exec (.add d a b) s = .next { s with regs := s.regs.set d v, ip := s.ip + 4 }) ∧
    (encode (.subtract d a b) = [13, BitVec.ofNat 8 d, BitVec.ofNat 8 a, BitVec.ofNat 8 b] ∧
      ∃ v : Word, v.toInt % 2 ^ 32 = ((s.reg a).toInt - (s.reg b).toInt) % 2 ^ 32 ∧
        exec (.subtract d a b) s = .next { s with regs := s.regs.set d v, ip := s.ip + 4 }) ∧
    (encode (.multiply d a b) = [14, BitVec.ofNat 8 d, BitVec.ofNat 8 a, BitVec.ofNat 8 b] ∧
      ∃ v : Word, v.toInt % 2 ^ 32 = ((s.reg a).toInt * (s.reg b).toInt) % 2 ^ 32 ∧
        v.toNat = ((s.reg a).toNat * (s.reg b).toNat) % 2 ^ 32 ∧
        exec (.multiply d a b) s = .next { s with regs := s.regs.set d v, ip := s.ip + 4 })

/-- R184: `Divide` by zero raises DivideByZero and changes nothing else, whatever the dividend; otherwise it writes
`s * ⌊|a| / |b|⌋`, `s` the sign, and only INT_MIN / -1 wraps, to INT_MIN. -/
def Obligations.DivideTruncatesTowardZero : Prop :=
  ∀ (d a b : Reg) (s : State),
    encode (.divide d a b) = [15, BitVec.ofNat 8 d, BitVec.ofNat 8 a, BitVec.ofNat 8 b] ∧
    (s.reg b = 0#32 → exec (.divide d a b) s = .next { s with runState := .faulted .divideByZero }) ∧
    (s.reg b ≠ 0#32 →
      ∃ v : Word, exec (.divide d a b) s = .next { s with regs := s.regs.set d v, ip := s.ip + 4 } ∧
        let x := (s.reg a).toInt
        let y := (s.reg b).toInt
        if x = -2147483648 ∧ y = -1 then v.toInt = -2147483648
        else v.toInt = (if x = 0 ∨ (x < 0 ↔ y < 0) then 1 else -1) * (|x| / |y|))

/-! ## Faults -/

/-- R201: a step that raises a fault of kind K changes nothing but `RS`, and its result is Error(K). -/
def Obligations.FaultsArePrecise : Prop :=
  ∀ (s t : State) (k : Fault), s.runState = .running → step s = .next t → t.runState = .faulted k →
    t = { s with runState := .faulted k } ∧ t.stepResult = some (.error k)

/-- R200: a step that begins raises a fault of a kind exactly when the cause of that kind holds, and the codes are 1 to 6
in the order listed. -/
def Obligations.FaultsHaveExactlyTheirCauses : Prop :=
  (∀ (s : State) (k : Fault), s.ready →
    (step s = .next { s with runState := .faulted k } ↔ s.faultCause k)) ∧
  ([.invalidInstruction, .unableToFetch, .outOfBounds, .stackOverflow, .stackUnderflow, .divideByZero] :
    List Fault).map Fault.code = [1, 2, 3, 4, 5, 6] ∧
  ∀ k : Fault, k ∈ ([.invalidInstruction, .unableToFetch, .outOfBounds, .stackOverflow, .stackUnderflow,
    .divideByZero] : List Fault)

/-- R205: at most one fault is raised, the first whose condition holds: UnableToFetch, then InvalidInstruction, then the
instruction's own, for `Push` OutOfBounds before StackOverflow. -/
def Obligations.TheFirstFaultInOrderIsRaised : Prop :=
  ∀ (s t : State) (k : Fault), s.ready → step s = .next t → t.runState = .faulted k →
    (∀ k', t.runState = .faulted k' → k' = k) ∧
    (¬ s.ipInCode → k = .unableToFetch) ∧
    (s.ipInCode → (∀ i, ¬ s.executes i) → k = .invalidInstruction) ∧
    (∀ target, s.executes (.call target) → k = .stackOverflow) ∧
    (s.executes .ret → k = .stackUnderflow) ∧
    (∀ addr r, s.executes (.load addr r) → k = .outOfBounds) ∧
    (∀ r addr, s.executes (.store r addr) → k = .outOfBounds) ∧
    (∀ r, s.executes (.push r) → k = if s.data.wordValid s.sp.toInt then .stackOverflow else .outOfBounds) ∧
    (∀ r, s.executes (.pop r) → k = .stackUnderflow) ∧
    (∀ d a b, s.executes (.divide d a b) → k = .divideByZero) ∧
    ∀ i, s.executes i → ((∃ target, i = .call target) ∨ i = .ret ∨ (∃ addr r, i = .load addr r) ∨
      (∃ r addr, i = .store r addr) ∨ (∃ r, i = .push r) ∨ (∃ r, i = .pop r) ∨ ∃ d a b, i = .divide d a b)

/-- R204: the status the host reads. -/
def Obligations.StatusIsThePairOfCodes : Prop :=
  ∀ s : State, (s.runState = .running → s.status = (0, 0)) ∧ (s.runState = .exited → s.status = (1, 0)) ∧
    (s.runState = .faulted .invalidInstruction → s.status = (2, 1)) ∧
    (s.runState = .faulted .unableToFetch → s.status = (2, 2)) ∧
    (s.runState = .faulted .outOfBounds → s.status = (2, 3)) ∧
    (s.runState = .faulted .stackOverflow → s.status = (2, 4)) ∧
    (s.runState = .faulted .stackUnderflow → s.status = (2, 5)) ∧
    (s.runState = .faulted .divideByZero → s.status = (2, 6))

/-! ## Frames -/

/-- The register frame of all 16 instructions: when `exec` gives a next state, every general-purpose register but the
instruction's destination is unchanged, and every one is where it raises a fault or waits (R22, R201). -/
def Obligations.OnlyTheDestinationRegisterChanges : Prop :=
  ∀ (i : Instr) (s t : State), exec i s = .next t →
    (∀ q, i.destination ≠ some q → t.reg q = s.reg q) ∧
    (s.ready → ¬ t.ready → i ≠ .exit → t.regs = s.regs)

/-- The memory frame of all 16 instructions: a form that stores nothing leaves every data byte; a form that stores a word
at an offset leaves every byte outside its four bytes; a fault leaves every byte; the size stays. The canonical form of
the data segment is a premise. -/
def Obligations.OnlyTheStoredBytesChange : Prop :=
  ∀ (i : Instr) (s t : State), s.data.wf → exec i s = .next t →
    t.data.size = s.data.size ∧
    (i.storeAddress s = none → ∀ a, t.data.read a = s.data.read a) ∧
    (s.runState = .running → t.runState ≠ .running → ∀ a, t.data.read a = s.data.read a) ∧
    ∀ b, i.storeAddress s = some b → ∀ a : Nat, ((a : Int) < b ∨ b + 4 ≤ (a : Int)) → t.data.read a = s.data.read a

/-- The frame of everything else, for all 16 instructions: the code and the parameters never change; `Bp` never; `Sp`
only by `Push` and `Pop`; the call stack only by `Call` and `Ret`; the bytes sent only by `WriteByte`; the bytes supplied
and the wait only by `ReadByte`; the snapshots only by `Debug`; the run state only by `Exit` and by a fault. -/
def Obligations.TheRestOfTheStateStays : Prop :=
  ∀ (i : Instr) (s t : State), exec i s = .next t →
    t.code = s.code ∧ t.params = s.params ∧ t.bp = s.bp ∧
    ((∀ r, i ≠ .push r) → (∀ r, i ≠ .pop r) → t.sp = s.sp) ∧
    ((∀ target, i ≠ .call target) → i ≠ .ret → t.callStack = s.callStack) ∧
    ((∀ r, i ≠ .writeByte r) → t.output = s.output) ∧
    ((∀ r, i ≠ .readByte r) → t.input = s.input ∧ t.waitingFor = s.waitingFor) ∧
    (i ≠ .debug → t.snapshots = s.snapshots) ∧
    (i ≠ .exit → t.runState = s.runState ∨ ∃ k, t.runState = .faulted k)

/-- R22: an instruction that does not read a register does not depend on it: run from two states that differ only there,
it does the same, and the register keeps its value unless the instruction writes it. -/
def Obligations.UnreadRegistersDoNotMatter : Prop :=
  ∀ (i : Instr) (s t : State) (r : Reg) (v : Word), i.readsReg r = false → exec i s = .next t →
    ∃ t', exec i (s.setReg r v) = .next t' ∧
      (i.destination ≠ some r → t' = t.setReg r v) ∧
      (i.destination = some r → (t' = t ∨ t' = t.setReg r v) ∧ (t.ready → t' = t))

/-! ## Registers with rules of their own -/

/-- R26: `Sp` is STACK_BASE after reset; only `Push` and `Pop` change it, and after one that completes it is word-valid;
one that faults leaves it; of the other instructions only `Debug` reads it. -/
def Obligations.SpMovesOnlyByPushAndPop : Prop :=
  (∀ (p : Params) (prog : LoadedProgram), (State.resetWith p prog).sp = BitVec.ofNat 32 p.stackBase) ∧
  (∀ (i : Instr) (s t : State), exec i s = .next t → t.sp ≠ s.sp → ∃ r, i = .push r ∨ i = .pop r) ∧
  (∀ (r : Reg) (s t : State), s.runState = .running → s.data.size ≤ intMax →
    (exec (.push r) s = .next t ∨ exec (.pop r) s = .next t) →
      (t.runState = .running → t.data.wordValid t.sp.toInt) ∧ (t.runState ≠ .running → t.sp = s.sp)) ∧
  ∀ (i : Instr) (s t : State) (v : Word), (∀ r, i ≠ .push r) → (∀ r, i ≠ .pop r) → i ≠ .debug →
    exec i s = .next t → exec i { s with sp := v } = .next { t with sp := v }

/-- R27: no instruction writes `Bp`, only `Debug` reads it, and so it is STACK_BASE for the whole run (its reset value is
the spec's decision D9). -/
def Obligations.BpIsTheStackBaseForTheWholeRun : Prop :=
  (∀ (i : Instr) (s t : State), exec i s = .next t → t.bp = s.bp) ∧
  (∀ (i : Instr) (s t : State) (v : Word), i ≠ .debug → exec i s = .next t →
    exec i { s with bp := v } = .next { t with bp := v }) ∧
  ∀ (p : Params) (prog : LoadedProgram) (n : Nat) (t : State),
    Host.Core.run Sys2Proof.core n (State.resetWith p prog) = .next t → t.bp = BitVec.ofNat 32 p.stackBase

/-- R251, R35, R31: no step writes the code segment or changes CLEN, DLEN, STACK_BASE or CALL_DEPTH_MAX, over any number
of steps. -/
def Obligations.CodeAndConfigurationAreFixed : Prop :=
  ∀ (n : Nat) (s t : State), Host.Core.run Sys2Proof.core n s = .next t →
    t.code = s.code ∧ t.params = s.params ∧ t.data.size = s.data.size

/-! ## Reset and loading -/

/-- R36, R240: what reset leaves, for any parameters and any loaded program; the zero registers, the entry point and `Bp`
are the spec's decisions D6, D7 and D9. Reset sends nothing, and no step leads into Running. -/
def Obligations.ResetValuesAreTheTable : Prop :=
  (∀ (p : Params) (prog : LoadedProgram),
    let s := State.resetWith p prog
    (∀ r, s.reg r = 0) ∧ s.ip = 0 ∧ s.sp = BitVec.ofNat 32 p.stackBase ∧ s.bp = BitVec.ofNat 32 p.stackBase ∧
    s.callStack = [] ∧ s.params = p ∧
    s.code.size = prog.code.length ∧ (∀ a, a < prog.code.length → prog.code[a]? = some (s.code.read a)) ∧
    s.data.size = prog.data.length ∧ (∀ a, a < prog.data.length → prog.data[a]? = some (s.data.read a)) ∧
    s.runState = .running ∧ s.waitingFor = none ∧ s.output = [] ∧ s.snapshots = []) ∧
  ∀ s t : State, step s = .next t → t.runState = .running → s.runState = .running

/-- The model's own choice (log entries 3, 4 and 5): `State.reset` is the reset of the empty program with STACK_BASE 0 and
CALL_DEPTH_MAX 1024, with no input byte supplied. -/
def Obligations.ResetIsTheEmptyProgramsReset : Prop :=
  State.reset = State.resetWith ⟨0, 1024⟩ ⟨[], [], []⟩ ∧ State.reset.input = [] ∧ State.reset.code.size = 0 ∧
    State.reset.data.size = 0

/-- The invariant holds after reset with any well-formed parameters and program, and in `State.reset`. -/
def Obligations.ResetMeetsTheInvariant : Prop :=
  (∀ (p : Params) (prog : LoadedProgram), p.wellFormed = true → prog.wellFormed = true →
    (State.resetWith p prog).Inv) ∧ State.reset.Inv

/-- Every step keeps the invariant, from every state that meets it: both segments canonical, at most CALL_DEPTH_MAX
return addresses, each in `[5, CLEN]`, `Sp` at STACK_BASE or word-valid, `Bp` at STACK_BASE, a wait only in the
`ReadByte` at `Ip`. A byte supplied between steps keeps it too. -/
def Obligations.StepKeepsTheInvariant : Prop :=
  (∀ s t : State, s.Inv → step s = .next t → t.Inv) ∧ ∀ (s : State) (b : Byte), s.Inv → (s.supplyByte b).Inv

/-- R242: a buffer shorter than the 12-byte header fails with InvalidHeader. The second clause is the model's own choice, log
entry 13: a header offset past the end of the buffer (none of the three inside the header) is a section that does not fit,
TruncatedSection; the spec leaves that condition undefined (N13). -/
def Obligations.BadHeadersDoNotLoad : Prop :=
  (∀ buf : List Byte, buf.length < 12 → loadImage buf = .failed .invalidHeader) ∧
  ∀ (buf : List Byte) (a b c : Word) (rest : List Byte),
    buf = bigEndianBytes a ++ bigEndianBytes b ++ bigEndianBytes c ++ rest →
    12 ≤ a.toInt → 12 ≤ b.toInt → 12 ≤ c.toInt →
    ((buf.length : Int) < a.toInt ∨ (buf.length : Int) < b.toInt ∨ (buf.length : Int) < c.toInt) →
      loadImage buf = .failed .truncatedSection

/-- R241 to R244: the image of a well-formed program, in the layout the source draws, loads as exactly that program. -/
def Obligations.ImagesLoadAsTheirPrograms : Prop :=
  ∀ prog : LoadedProgram, prog.wellFormed = true → (imageOf prog).length ≤ intMax →
    loadImage (imageOf prog) = .loaded prog

/-- R246: a load-time error prevents the run: the block is not reset; and the block is only ever booted as the reset of a
well-formed program that loaded. -/
def Obligations.OnlyALoadedProgramBoots : Prop :=
  ∀ (p : Params) (buf : List Byte),
    (∀ e, loadImage buf = .failed e → bootImage p buf = none) ∧
    ∀ s, bootImage p buf = some s →
      ∃ prog, loadImage buf = .loaded prog ∧ prog.wellFormed = true ∧ s = State.resetWith p prog

/-! ## Whole runs -/

/-- R120: control flow is fully static: from two states with the same code, parameters, `Ip` and call stack, whatever
their registers and data, two steps that both complete leave the same `Ip` and the same call stack. -/
def Obligations.ControlFlowIgnoresData : Prop :=
  ∀ s₁ s₂ t₁ t₂ : State, s₁.code = s₂.code → s₁.params = s₂.params → s₁.ip = s₂.ip → s₁.callStack = s₂.callStack →
    s₁.ready → s₂.ready → step s₁ = .next t₁ → step s₂ = .next t₂ → t₁.ready → t₂.ready →
      t₁.ip = t₂.ip ∧ t₁.callStack = t₂.callStack

/-- R253: every run performs finitely many steps: from every state that meets the invariant, some number of steps leads to
a state where the run has ended or the block waits for a byte that has not been supplied. (The call stack followed by
`Ip`, read as a sequence in which a missing entry counts as larger than any offset, rises lexicographically at every
completed instruction, and it has at most CALL_DEPTH_MAX + 1 entries of at most CLEN.) -/
def Obligations.EveryRunEndsOrWaits : Prop :=
  ∀ s : State, s.Inv → ∃ (n : Nat) (t : State), Host.Core.run Sys2Proof.core n s = .next t ∧ (t.ended ∨ t.starved)

/-- R226: the run has ended exactly in Exited and in Faulted(K), and only then is there an exit code, 0 and 1; a run that
waits has not ended. A load failure has exit code 1, and no run begins. (The diagnostic on the error stream is left out, log
entry 17.) -/
def Obligations.EveryEndHasItsExitCode : Prop :=
  (∀ s : State,
    (s.ended ↔ s.runState = .exited ∨ ∃ k, s.runState = .faulted k) ∧
    (s.exitCode = some 0 ↔ s.runState = .exited) ∧
    (s.exitCode = some 1 ↔ ∃ k, s.runState = .faulted k) ∧
    (s.exitCode = none ↔ ¬ s.ended) ∧
    (s.starved → s.exitCode = none)) ∧
  ∀ (p : Params) (buf : List Byte),
    ((loadImage buf).exitCode = some 1 ↔ ∃ e, loadImage buf = .failed e) ∧
    ((loadImage buf).exitCode = some 1 → bootImage p buf = none)
end

