-- ==== Sys2Proof/Laws/Memory.lean ====
section
/-! SUPPORT. The laws of a segment: read after write, the canonical form kept by every operation, equal bytes give
equal segments, and the word accesses of R54 and R55. -/

namespace Sys2Proof.Machine

/-! ## Cells -/

theorem cellsRead_eq_zero {l : List Host.Cell} {a : Nat} (h : ∀ c ∈ l, a < c.1) : cellsRead l a = 0#8 := by
  induction l with
  | nil => rfl
  | cons c l ih =>
    have hc := h c (by simp)
    simp [cellsRead, show ¬ c.1 = a by omega, ih (fun d hd => h d (by simp [hd]))]

/-- Read after write, on cells in rising order. -/
theorem cellsRead_cellsWrite {l : List Host.Cell} (hl : l.Pairwise (fun c d => c.1 < d.1)) (a b : Nat) (v : Byte) :
    cellsRead (cellsWrite l a v) b = if b = a then v else cellsRead l b := by
  induction l with
  | nil =>
    by_cases hv : v = 0#8
    · simp [cellsWrite, cellsRead, hv]
    · by_cases hb : b = a
      · simp [cellsWrite, cellsRead, hv, hb]
      · simp [cellsWrite, cellsRead, hv, hb, Ne.symm hb]
  | cons c l ih =>
    obtain ⟨hc, hl⟩ := List.pairwise_cons.mp hl
    have ih := ih hl
    unfold cellsWrite
    split
    · next h =>
      simp only [cellsRead, ih]
      by_cases h1 : c.1 = b
      · simp [h1, show ¬ b = a by omega]
      · simp [h1]
    · split
      · next h =>
        by_cases hb : b = a
        · subst hb
          split <;> simp_all [cellsRead]
          exact cellsRead_eq_zero (fun d hd => hc d.1 d.2 hd)
        · split <;> simp [cellsRead, h, Ne.symm hb]
      · next h1 h2 =>
        have h3 : a < c.1 := by omega
        by_cases hb : b = a
        · subst hb
          split
          · next hv =>
            subst hv
            rw [if_pos rfl]
            exact cellsRead_eq_zero (by
              intro d hd
              rcases List.mem_cons.mp hd with rfl | hd
              · exact h3
              · exact lt_trans h3 (hc d hd))
          · simp [cellsRead]
        · split <;> simp [cellsRead, Ne.symm hb]

theorem mem_cellsWrite {l : List Host.Cell} {a : Nat} {v : Byte} {c : Host.Cell} (h : c ∈ cellsWrite l a v) :
    c ∈ l ∨ (c = (a, v) ∧ v ≠ 0#8) := by
  induction l with
  | nil => by_cases hv : v = 0#8 <;> simp_all [cellsWrite]
  | cons d l ih =>
    unfold cellsWrite at h
    split at h
    · rcases List.mem_cons.mp h with rfl | h
      · simp
      · rcases ih h with h | h <;> simp [h]
    · split at h
      · split at h <;> simp_all
        tauto
      · split at h <;> simp_all
        rcases h with h | h | h <;> simp [h]

theorem cellsWrite_rising {l : List Host.Cell} (hl : l.Pairwise (fun c d => c.1 < d.1)) (a : Nat) (v : Byte) :
    (cellsWrite l a v).Pairwise (fun c d => c.1 < d.1) := by
  induction l with
  | nil => by_cases hv : v = 0#8 <;> simp [cellsWrite, hv]
  | cons c l ih =>
    obtain ⟨hc, hl⟩ := List.pairwise_cons.mp hl
    unfold cellsWrite
    split
    · next h =>
      refine List.pairwise_cons.mpr ⟨fun d hd => ?_, ih hl⟩
      rcases mem_cellsWrite hd with hd | ⟨rfl, _⟩
      · exact hc d hd
      · exact h
    · split
      · next h => split <;> [exact hl; exact List.pairwise_cons.mpr ⟨fun d hd => h ▸ hc d hd, hl⟩]
      · next h1 h2 =>
        have h3 : a < c.1 := by omega
        have h4 : (c :: l).Pairwise (fun c d => c.1 < d.1) := List.pairwise_cons.mpr ⟨hc, hl⟩
        split
        · exact h4
        · refine List.pairwise_cons.mpr ⟨fun d hd => ?_, h4⟩
          rcases List.mem_cons.mp hd with rfl | hd
          · exact h3
          · exact lt_trans h3 (hc d hd)

/-- Two canonical lists of cells that read the same are the same list. -/
theorem cells_ext {l m : List Host.Cell} (hl : l.Pairwise (fun c d => c.1 < d.1)) (hm : m.Pairwise (fun c d => c.1 < d.1))
    (zl : ∀ c ∈ l, c.2 ≠ 0#8) (zm : ∀ c ∈ m, c.2 ≠ 0#8) (h : ∀ a, cellsRead l a = cellsRead m a) : l = m := by
  induction l generalizing m with
  | nil =>
    cases m with
    | nil => rfl
    | cons d m =>
      have := h d.1
      simp [cellsRead] at this
      exact absurd this.symm (zm d (by simp))
  | cons c l ih =>
    obtain ⟨hc, hl⟩ := List.pairwise_cons.mp hl
    have hcz := zl c (by simp)
    cases m with
    | nil =>
      have := h c.1
      simp [cellsRead] at this
      exact absurd this hcz
    | cons d m =>
      have hd := (List.pairwise_cons.mp hm).1
      have hdz := zm d (by simp)
      have hcd : c.1 = d.1 := by
        rcases Nat.lt_trichotomy c.1 d.1 with hlt | heq | hgt
        · have h1 := h c.1
          rw [cellsRead_eq_zero (l := d :: m) (by
            intro e he
            rcases List.mem_cons.mp he with rfl | he
            · exact hlt
            · exact lt_trans hlt (hd e he))] at h1
          simp [cellsRead] at h1
          exact absurd h1 hcz
        · exact heq
        · have h1 := h d.1
          rw [cellsRead_eq_zero (l := c :: l) (by
            intro e he
            rcases List.mem_cons.mp he with rfl | he
            · exact hgt
            · exact lt_trans hgt (hc e he))] at h1
          simp [cellsRead] at h1
          exact absurd h1.symm hdz
      have hv : c.2 = d.2 := by
        have h1 := h c.1
        simpa [cellsRead, hcd] using h1
      have : c = d := Prod.ext hcd hv
      subst this
      congr 1
      refine ih hl (List.pairwise_cons.mp hm).2 (fun e he => zl e (by simp [he])) (fun e he => zm e (by simp [he])) (fun a => ?_)
      by_cases ha : c.1 = a
      · subst ha
        rw [cellsRead_eq_zero hc, cellsRead_eq_zero hd]
      · simpa [cellsRead, ha] using h a

/-! ## Bytes -/

@[simp] theorem Memory.write_size (m : Memory) (a : Nat) (v : Byte) : (m.write a v).size = m.size := by
  unfold Memory.write; split <;> rfl

/-- A write of a byte keeps the canonical form. -/
theorem Memory.write_wf {m : Memory} (h : m.wf) (a : Nat) (v : Byte) : (m.write a v).wf := by
  unfold Memory.write
  split
  · next ha =>
    refine ⟨cellsWrite_rising h.1 a v, fun c hc => ?_⟩
    rcases mem_cellsWrite hc with hc | ⟨rfl, hv⟩
    · exact h.2 c hc
    · exact ⟨ha, hv⟩
  · exact h

/-- Read after write of a byte. -/
theorem Memory.read_write {m : Memory} (h : m.wf) {a : Nat} (ha : a < m.size) (b : Nat) (v : Byte) :
    (m.write a v).read b = if b = a then v else m.read b := by
  simp [Memory.write, Memory.read, ha, cellsRead_cellsWrite h.1]

@[simp] theorem Memory.writeBytes_size (m : Memory) (a : Nat) (bs : List Byte) : (m.writeBytes a bs).size = m.size := by
  induction bs generalizing m a with
  | nil => rfl
  | cons b bs ih => simp [Memory.writeBytes, ih]

/-- A write of bytes keeps the canonical form. -/
theorem Memory.writeBytes_wf {m : Memory} (h : m.wf) (a : Nat) (bs : List Byte) : (m.writeBytes a bs).wf := by
  induction bs generalizing m a with
  | nil => exact h
  | cons b bs ih => exact ih (Memory.write_wf h a b) (a + 1)

/-- Read after a write of bytes: inside the bytes written, the byte written; outside, the byte before. -/
theorem Memory.read_writeBytes {m : Memory} (h : m.wf) {a : Nat} {bs : List Byte} (ha : a + bs.length ≤ m.size) (b : Nat) :
    (m.writeBytes a bs).read b = if a ≤ b ∧ b < a + bs.length then bs.getD (b - a) 0#8 else m.read b := by
  induction bs generalizing m a with
  | nil => simp [Memory.writeBytes]
  | cons v bs ih =>
    simp only [List.length_cons] at ha
    rw [Memory.writeBytes, ih (Memory.write_wf h a v) (by simp; omega), Memory.read_write h (by omega)]
    simp only [List.length_cons]
    by_cases h1 : a + 1 ≤ b ∧ b < a + 1 + bs.length
    · rw [if_pos h1, if_pos (by omega), show b - a = (b - (a + 1)) + 1 by omega]
      simp
    · rw [if_neg h1]
      by_cases h2 : b = a
      · subst h2
        rw [if_pos rfl, if_pos (by omega)]
        simp
      · rw [if_neg h2, if_neg (by omega)]

/-- Outside the bytes written every byte reads as before. -/
theorem Memory.read_writeBytes_outside {m : Memory} (h : m.wf) {a : Nat} {bs : List Byte} (ha : a + bs.length ≤ m.size)
    {b : Nat} (hb : b < a ∨ a + bs.length ≤ b) : (m.writeBytes a bs).read b = m.read b := by
  rw [Memory.read_writeBytes h ha, if_neg (by omega)]

/-- Canonical segments of one size that read the same are equal data. -/
theorem Memory.ext_read {m n : Memory} (hm : m.wf) (hn : n.wf) (hs : m.size = n.size) (h : ∀ a, m.read a = n.read a) :
    m = n := by
  cases m; cases n
  simp only [Memory.mk.injEq]
  exact ⟨hs, cells_ext hm.1 hn.1 (fun c hc => (hm.2 c hc).2) (fun c hc => (hn.2 c hc).2) h⟩

/-- Outside a canonical segment every offset reads as 0. -/
theorem Memory.read_outside {m : Memory} (h : m.wf) {a : Nat} (ha : m.size ≤ a) : m.read a = 0#8 := by
  have key : ∀ l : List Host.Cell, (∀ c ∈ l, c.1 < m.size) → cellsRead l a = 0#8 := by
    intro l
    induction l with
    | nil => intro _; rfl
    | cons c l ih =>
      intro hl
      have := hl c (by simp)
      simp [cellsRead, show ¬ c.1 = a by omega, ih (fun d hd => hl d (by simp [hd]))]
  exact key m.cells (fun c hc => (h.2 c hc).1)

@[simp] theorem Memory.grow_size (m : Memory) (n : Nat) : (m.grow n).size = max m.size n := rfl

@[simp] theorem Memory.grow_read (m : Memory) (n a : Nat) : (m.grow n).read a = m.read a := rfl

theorem Memory.grow_wf {m : Memory} (h : m.wf) (n : Nat) : (m.grow n).wf :=
  ⟨h.1, fun c hc => ⟨lt_of_lt_of_le (h.2 c hc).1 (le_max_left _ _), (h.2 c hc).2⟩⟩

theorem Memory.empty_wf : Memory.empty.wf := by decide

@[simp] theorem Memory.bytes_length (m : Memory) (a n : Nat) : (m.bytes a n).length = n := by simp [Memory.bytes]

theorem Memory.bytes_getElem (m : Memory) (a n k : Nat) (h : k < (m.bytes a n).length) :
    (m.bytes a n)[k] = m.read (a + k) := by simp [Memory.bytes]

/-- A shorter run of bytes is the beginning of a longer one. -/
theorem Memory.bytes_take (m : Memory) (a n k : Nat) : (m.bytes a n).take k = m.bytes a (min k n) := by
  simp [Memory.bytes, ← List.map_take, List.take_range]

/-! ## Segments from byte strings -/

theorem mem_cellsOf {a : Nat} {bs : List Byte} {c : Host.Cell} (h : c ∈ cellsOf a bs) :
    a ≤ c.1 ∧ c.1 < a + bs.length ∧ c.2 ≠ 0#8 := by
  induction bs generalizing a with
  | nil => simp [cellsOf] at h
  | cons b bs ih =>
    unfold cellsOf at h
    split at h
    · obtain ⟨h1, h2, h3⟩ := ih h
      rw [List.length_cons]
      exact ⟨by omega, by omega, h3⟩
    · rcases List.mem_cons.mp h with rfl | h
      · next hb => exact ⟨Nat.le_refl a, by simp, hb⟩
      · obtain ⟨h1, h2, h3⟩ := ih h
        rw [List.length_cons]
        exact ⟨by omega, by omega, h3⟩

theorem cellsOf_rising (a : Nat) (bs : List Byte) : (cellsOf a bs).Pairwise (fun c d => c.1 < d.1) := by
  induction bs generalizing a with
  | nil => exact List.Pairwise.nil
  | cons b bs ih =>
    unfold cellsOf
    split
    · exact ih (a + 1)
    · exact List.pairwise_cons.mpr ⟨fun d hd => by have := (mem_cellsOf hd).1; simp; omega, ih (a + 1)⟩

/-- A segment made from a byte string is in canonical form. -/
theorem Memory.ofBytes_wf (bs : List Byte) : (Memory.ofBytes bs).wf :=
  ⟨cellsOf_rising 0 bs, fun c hc => by
    obtain ⟨_, h2, h3⟩ := mem_cellsOf hc
    exact ⟨by simpa [Memory.ofBytes] using h2, h3⟩⟩

@[simp] theorem Memory.ofBytes_size (bs : List Byte) : (Memory.ofBytes bs).size = bs.length := rfl

theorem cellsRead_cellsOf (a b : Nat) (bs : List Byte) :
    cellsRead (cellsOf a bs) b = if a ≤ b then bs.getD (b - a) 0#8 else 0#8 := by
  induction bs generalizing a with
  | nil => simp [cellsOf, cellsRead]
  | cons v bs ih =>
    by_cases hab : a = b
    · subst hab
      by_cases hv : v = 0#8
      · simp [cellsOf, hv, ih]
      · simp [cellsOf, hv, cellsRead]
    · have hstep : cellsRead (cellsOf a (v :: bs)) b = cellsRead (cellsOf (a + 1) bs) b := by
        by_cases hv : v = 0#8 <;> simp [cellsOf, hv, cellsRead, hab]
      rw [hstep, ih]
      by_cases hlt : a + 1 ≤ b
      · rw [if_pos hlt, if_pos (by omega), show b - a = (b - (a + 1)) + 1 by omega]; simp
      · rw [if_neg hlt, if_neg (by omega)]

/-- A segment made from a byte string holds it, byte for byte (R240). -/
theorem Memory.read_ofBytes (bs : List Byte) (a : Nat) : (Memory.ofBytes bs).read a = bs.getD a 0#8 := by
  simp [Memory.read, Memory.ofBytes, cellsRead_cellsOf]

/-! ## Words -/

@[simp] theorem wordBytes_length (v : Word) : (wordBytes v).length = 4 := rfl

theorem Memory.wordValid_iff {m : Memory} {a : Int} : m.wordValid a ↔ 0 ≤ a ∧ a + 4 ≤ (m.size : Int) := Iff.rfl

/-- When a word read succeeds, and what it gives (R54). -/
theorem Memory.readWord_eq_some {m : Memory} {a : Int} {v : Word} :
    m.readWord a = some v ↔ m.wordValid a ∧
      v = wordOf (m.read a.toNat) (m.read (a.toNat + 1)) (m.read (a.toNat + 2)) (m.read (a.toNat + 3)) := by
  unfold Memory.readWord
  split
  · next h => exact ⟨fun e => ⟨h, (Option.some.inj e).symm⟩, fun e => by rw [e.2]⟩
  · next h => simp [h]

theorem Memory.readWord_eq_none {m : Memory} {a : Int} : m.readWord a = none ↔ ¬ m.wordValid a := by
  unfold Memory.readWord; split <;> simp_all

/-- When a word write succeeds, and what it gives (R55). -/
theorem Memory.writeWord_eq_some {m n : Memory} {a : Int} {v : Word} :
    m.writeWord a v = some n ↔ m.wordValid a ∧ n = m.writeBytes a.toNat (wordBytes v) := by
  unfold Memory.writeWord
  split
  · next h => exact ⟨fun e => ⟨h, (Option.some.inj e).symm⟩, fun e => by rw [e.2]⟩
  · next h => simp [h]

theorem Memory.writeWord_eq_none {m : Memory} {a : Int} {v : Word} : m.writeWord a v = none ↔ ¬ m.wordValid a := by
  unfold Memory.writeWord; split <;> simp_all

/-- Everything a word write does: the size and the canonical form stay, the four bytes hold the word big-endian, and
every other byte reads as before. -/
theorem Memory.writeWord_spec {m n : Memory} {a : Int} {v : Word} (h : m.wf) (hw : m.writeWord a v = some n) :
    n.wf ∧ n.size = m.size ∧ (∀ k, k < 4 → n.read (a.toNat + k) = (wordBytes v).getD k 0#8) ∧
      ∀ b, (b < a.toNat ∨ a.toNat + 4 ≤ b) → n.read b = m.read b := by
  obtain ⟨hv, rfl⟩ := Memory.writeWord_eq_some.mp hw
  have hfit : a.toNat + (wordBytes v).length ≤ m.size := by
    have := Memory.wordValid_iff.mp hv
    rw [wordBytes_length]; omega
  refine ⟨Memory.writeBytes_wf h _ _, by simp, fun k hk => ?_, fun b hb => Memory.read_writeBytes_outside h hfit (by simpa using hb)⟩
  rw [Memory.read_writeBytes h hfit, if_pos (by rw [wordBytes_length]; omega)]
  simp

end Sys2Proof.Machine
end

