-- ==== Sys2Proof/Laws/Decode.lean ====
section
/-! SUPPORT. Bytes and words, the opcode map, and what decoding reads. -/

namespace Sys2Proof

open Sys2Proof.Machine

/-! ## Bytes, indices and words -/

@[simp] theorem regOf_regByte (r : Reg) : regOf (regByte r) = r := rfl

@[simp] theorem regByte_regOf (b : Byte) : regByte (regOf b) = b := rfl

theorem regByte_eq (r : Reg) : regByte r = BitVec.ofNat 8 r := by
  apply BitVec.eq_of_toNat_eq
  simp [regByte]

theorem append_byte_toNat {n : Nat} (x : BitVec n) (b : Byte) : (x ++ b).toNat = x.toNat * 2 ^ 8 + b.toNat := by
  rw [BitVec.toNat_append, ← Nat.shiftLeft_add_eq_or_of_lt b.isLt, Nat.shiftLeft_eq]

/-- The unsigned value of the big-endian combination (R84). -/
theorem wordOf_toNat (b0 b1 b2 b3 : Byte) : (wordOf b0 b1 b2 b3).toNat = bigEndianValue b0 b1 b2 b3 := by
  have h : (wordOf b0 b1 b2 b3).toNat = (((b0 ++ b1 : BitVec 16) ++ b2 : BitVec 24) ++ b3 : BitVec 32).toNat := rfl
  rw [h, append_byte_toNat, append_byte_toNat, append_byte_toNat, bigEndianValue]
  omega

/-- The bytes of a word, by division (R56). -/
theorem wordBytes_eq (v : Word) : wordBytes v = bigEndianBytes v := by
  simp only [wordBytes, bigEndianBytes]
  congr 1
  · apply BitVec.eq_of_toNat_eq; simp [Nat.shiftRight_eq_div_pow]
  · congr 1
    · apply BitVec.eq_of_toNat_eq; simp [Nat.shiftRight_eq_div_pow]
    · congr 1
      apply BitVec.eq_of_toNat_eq; simp [Nat.shiftRight_eq_div_pow]

@[simp] theorem bigEndianBytes_length (v : Word) : (bigEndianBytes v).length = 4 := rfl

/-- The word of its own bytes (W1). -/
theorem wordOf_wordBytes (v : Word) :
    wordOf (v.extractLsb' 24 8) (v.extractLsb' 16 8) (v.extractLsb' 8 8) (v.extractLsb' 0 8) = v := by
  apply BitVec.eq_of_toNat_eq
  rw [wordOf_toNat, bigEndianValue]
  simp [Nat.shiftRight_eq_div_pow]
  omega

/-- The bytes of a word made from bytes (W1). -/
theorem wordBytes_wordOf (b0 b1 b2 b3 : Byte) : wordBytes (wordOf b0 b1 b2 b3) = [b0, b1, b2, b3] := by
  have h0 := b0.isLt; have h1 := b1.isLt; have h2 := b2.isLt; have h3 := b3.isLt
  have hw := wordOf_toNat b0 b1 b2 b3
  simp only [bigEndianValue] at hw
  rw [wordBytes_eq, bigEndianBytes, hw]
  congr 1
  · apply BitVec.eq_of_toNat_eq; simp; omega
  · congr 1
    · apply BitVec.eq_of_toNat_eq; simp; omega
    · congr 1
      · apply BitVec.eq_of_toNat_eq; simp; omega
      · congr 1
        apply BitVec.eq_of_toNat_eq; simp; omega

/-! ## The opcode map -/

theorem opcodeSize_eq_some {op n : Nat} (h : opcodeSize op = some n) : op < 16 ∧ sizeColumn.getD op 0 = n := by
  unfold opcodeSize at h
  split at h <;> first | (cases h; decide) | cases h

theorem opcodeSize_of_lt {op : Nat} (h : op < 16) : opcodeSize op = some (sizeColumn.getD op 0) := by
  interval_cases op <;> rfl

theorem opcodeSize_pos {op n : Nat} (h : opcodeSize op = some n) : 1 ≤ n ∧ n ≤ 6 := by
  obtain ⟨h1, h2⟩ := opcodeSize_eq_some h
  subst h2
  interval_cases op <;> decide

theorem opcodeSize_eq_none {op : Nat} : opcodeSize op = none ↔ 16 ≤ op := by
  constructor
  · intro h
    by_contra hlt
    rw [opcodeSize_of_lt (by omega)] at h
    cases h
  · intro h
    cases hs : opcodeSize op with
    | none => rfl
    | some n => have := (opcodeSize_eq_some hs).1; omega

/-- The opcodes that select an instruction are the ones that have a size. -/
theorem operandsOf_isSome (op : Nat) (bs : List Byte) : (operandsOf op bs).isSome = decide (op < 16) := by
  by_cases h : op < 16
  · interval_cases op <;> rfl
  · unfold operandsOf
    split <;> first | (exact absurd (by decide) h) | simp [h]

/-- The instruction read has the opcode it was read by. -/
theorem operandsOf_opcode {op : Nat} {bs : List Byte} {i : Instr} (h : operandsOf op bs = some i) : i.opcode = op := by
  unfold operandsOf at h
  split at h <;> cases h <;> rfl

@[simp] theorem opcodeSize_opcode (i : Instr) : opcodeSize i.opcode = some i.size := by cases i <;> rfl

/-- The operand bytes of an opcode's own size are all that its operands depend on (R85). -/
theorem operandsOf_congr {op n : Nat} {bs cs : List Byte} (hn : opcodeSize op = some n)
    (h : ∀ k, k < n → bs.getD k 0#8 = cs.getD k 0#8) : operandsOf op bs = operandsOf op cs := by
  unfold opcodeSize at hn
  split at hn <;> cases hn <;>
    simp (disch := omega) only [operandsOf, immAt, regAt, byteAt, h]

/-- An instruction's size is the size column's entry for its opcode (R86). -/
theorem Instr.size_eq (i : Instr) : i.size = sizeColumn.getD i.opcode 0 := by cases i <;> rfl

/-! ## Decoding -/

/-- When decoding gives an instruction (R85, R87). -/
theorem decode_eq_instr {bs : List Byte} {i : Instr} {n : Nat} :
    decode bs = .instr i n ↔
      ∃ op rest, bs = op :: rest ∧ opcodeSize op.toNat = some n ∧ operandsOf op.toNat bs = some i ∧ n ≤ bs.length := by
  cases bs with
  | nil => simp [decode]
  | cons op rest =>
    simp only [decode]
    cases hs : opcodeSize op.toNat with
    | none => simp [hs]
    | some m =>
      cases ho : operandsOf op.toNat (op :: rest) with
      | none => simp [ho]
      | some j =>
        simp only [List.cons.injEq]
        constructor
        · intro h
          split at h
          · cases h
          · cases h
            exact ⟨op, rest, ⟨rfl, rfl⟩, hs, ho, by omega⟩
        · rintro ⟨_, _, ⟨rfl, rfl⟩, h1, h2, h3⟩
          rw [hs] at h1
          rw [ho] at h2
          cases h1; cases h2
          rw [if_neg (by omega)]

/-- The size that decoding gives is the instruction's own. -/
theorem decode_size {bs : List Byte} {i : Instr} {n : Nat} (h : decode bs = .instr i n) : n = i.size := by
  obtain ⟨op, rest, rfl, hs, ho, _⟩ := decode_eq_instr.mp h
  rw [← operandsOf_opcode ho] at hs
  simpa using hs.symm

/-- Decoding is by the first byte and by nothing past the size of its opcode: byte strings that agree on their first 6
bytes, and on whether they have them, decode alike (R85). -/
theorem decode_congr {bs cs : List Byte} (hl : min 6 bs.length = min 6 cs.length)
    (h : ∀ k, k < 6 → bs.getD k 0#8 = cs.getD k 0#8) : decode bs = decode cs := by
  cases bs with
  | nil =>
    cases cs with
    | nil => rfl
    | cons c cs => exfalso; simp at hl; omega
  | cons b bs =>
    cases cs with
    | nil => simp at hl
    | cons c cs =>
      have hbc : b = c := by simpa using h 0 (by decide)
      subst hbc
      simp only [decode]
      cases hs : opcodeSize b.toNat with
      | none => rfl
      | some n =>
        have hn := opcodeSize_pos hs
        rw [operandsOf_congr hs (fun k hk => h k (by omega))]
        cases operandsOf b.toNat (b :: cs) with
        | none => rfl
        | some j =>
          have : ((b :: bs).length < n) = ((b :: cs).length < n) := by
            apply propext; omega
          simp only [this]

/-- The window that the fetch reads decodes as all the code from `Ip` does. -/
theorem decode_fetchWindow (s : State) : decode s.fetchWindow = decode s.codeFrom := by
  apply decode_congr
  · simp [State.fetchWindow, State.codeFrom, maxInstrLength]
  · intro k hk
    simp only [State.fetchWindow, State.codeFrom, maxInstrLength, List.getD_eq_getElem?_getD]
    by_cases h : k < s.code.size - s.ip.toNat
    · rw [List.getElem?_eq_getElem (by simp; omega), List.getElem?_eq_getElem (by simpa using h),
        Memory.bytes_getElem, Memory.bytes_getElem]
    · rw [List.getElem?_eq_none (by simp; omega), List.getElem?_eq_none (by simp; omega)]

end Sys2Proof
end

