-- ==== Sys2Proof/Laws/State.lean ====
section
/-! SUPPORT. One lemma per field per update of State, so that no later proof unfolds a record update; register read
after register write; and the fields of the reset state. -/

namespace Sys2Proof.Machine

variable (s : State)

@[simp] theorem State.setReg_regs (r : Reg) (v : Word) : (s.setReg r v).regs = s.regs.set r v := rfl
@[simp] theorem State.setReg_ip (r : Reg) (v : Word) : (s.setReg r v).ip = s.ip := rfl
@[simp] theorem State.setReg_sp (r : Reg) (v : Word) : (s.setReg r v).sp = s.sp := rfl
@[simp] theorem State.setReg_bp (r : Reg) (v : Word) : (s.setReg r v).bp = s.bp := rfl
@[simp] theorem State.setReg_callStack (r : Reg) (v : Word) : (s.setReg r v).callStack = s.callStack := rfl
@[simp] theorem State.setReg_code (r : Reg) (v : Word) : (s.setReg r v).code = s.code := rfl
@[simp] theorem State.setReg_data (r : Reg) (v : Word) : (s.setReg r v).data = s.data := rfl
@[simp] theorem State.setReg_runState (r : Reg) (v : Word) : (s.setReg r v).runState = s.runState := rfl
@[simp] theorem State.setReg_waitingFor (r : Reg) (v : Word) : (s.setReg r v).waitingFor = s.waitingFor := rfl
@[simp] theorem State.setReg_params (r : Reg) (v : Word) : (s.setReg r v).params = s.params := rfl
@[simp] theorem State.setReg_input (r : Reg) (v : Word) : (s.setReg r v).input = s.input := rfl
@[simp] theorem State.setReg_output (r : Reg) (v : Word) : (s.setReg r v).output = s.output := rfl
@[simp] theorem State.setReg_snapshots (r : Reg) (v : Word) : (s.setReg r v).snapshots = s.snapshots := rfl

@[simp] theorem State.setIp_regs (v : Word) : (s.setIp v).regs = s.regs := rfl
@[simp] theorem State.setIp_ip (v : Word) : (s.setIp v).ip = v := rfl
@[simp] theorem State.setIp_sp (v : Word) : (s.setIp v).sp = s.sp := rfl
@[simp] theorem State.setIp_bp (v : Word) : (s.setIp v).bp = s.bp := rfl
@[simp] theorem State.setIp_callStack (v : Word) : (s.setIp v).callStack = s.callStack := rfl
@[simp] theorem State.setIp_code (v : Word) : (s.setIp v).code = s.code := rfl
@[simp] theorem State.setIp_data (v : Word) : (s.setIp v).data = s.data := rfl
@[simp] theorem State.setIp_runState (v : Word) : (s.setIp v).runState = s.runState := rfl
@[simp] theorem State.setIp_waitingFor (v : Word) : (s.setIp v).waitingFor = s.waitingFor := rfl
@[simp] theorem State.setIp_params (v : Word) : (s.setIp v).params = s.params := rfl
@[simp] theorem State.setIp_input (v : Word) : (s.setIp v).input = s.input := rfl
@[simp] theorem State.setIp_output (v : Word) : (s.setIp v).output = s.output := rfl
@[simp] theorem State.setIp_snapshots (v : Word) : (s.setIp v).snapshots = s.snapshots := rfl

@[simp] theorem State.setSp_regs (v : Word) : (s.setSp v).regs = s.regs := rfl
@[simp] theorem State.setSp_ip (v : Word) : (s.setSp v).ip = s.ip := rfl
@[simp] theorem State.setSp_sp (v : Word) : (s.setSp v).sp = v := rfl
@[simp] theorem State.setSp_bp (v : Word) : (s.setSp v).bp = s.bp := rfl
@[simp] theorem State.setSp_callStack (v : Word) : (s.setSp v).callStack = s.callStack := rfl
@[simp] theorem State.setSp_code (v : Word) : (s.setSp v).code = s.code := rfl
@[simp] theorem State.setSp_data (v : Word) : (s.setSp v).data = s.data := rfl
@[simp] theorem State.setSp_runState (v : Word) : (s.setSp v).runState = s.runState := rfl
@[simp] theorem State.setSp_waitingFor (v : Word) : (s.setSp v).waitingFor = s.waitingFor := rfl
@[simp] theorem State.setSp_params (v : Word) : (s.setSp v).params = s.params := rfl
@[simp] theorem State.setSp_input (v : Word) : (s.setSp v).input = s.input := rfl
@[simp] theorem State.setSp_output (v : Word) : (s.setSp v).output = s.output := rfl
@[simp] theorem State.setSp_snapshots (v : Word) : (s.setSp v).snapshots = s.snapshots := rfl

@[simp] theorem State.setData_regs (m : Memory) : (s.setData m).regs = s.regs := rfl
@[simp] theorem State.setData_ip (m : Memory) : (s.setData m).ip = s.ip := rfl
@[simp] theorem State.setData_sp (m : Memory) : (s.setData m).sp = s.sp := rfl
@[simp] theorem State.setData_bp (m : Memory) : (s.setData m).bp = s.bp := rfl
@[simp] theorem State.setData_callStack (m : Memory) : (s.setData m).callStack = s.callStack := rfl
@[simp] theorem State.setData_code (m : Memory) : (s.setData m).code = s.code := rfl
@[simp] theorem State.setData_data (m : Memory) : (s.setData m).data = m := rfl
@[simp] theorem State.setData_runState (m : Memory) : (s.setData m).runState = s.runState := rfl
@[simp] theorem State.setData_waitingFor (m : Memory) : (s.setData m).waitingFor = s.waitingFor := rfl
@[simp] theorem State.setData_params (m : Memory) : (s.setData m).params = s.params := rfl
@[simp] theorem State.setData_input (m : Memory) : (s.setData m).input = s.input := rfl
@[simp] theorem State.setData_output (m : Memory) : (s.setData m).output = s.output := rfl
@[simp] theorem State.setData_snapshots (m : Memory) : (s.setData m).snapshots = s.snapshots := rfl

@[simp] theorem State.advance_regs (n : Nat) : (s.advance n).regs = s.regs := rfl
@[simp] theorem State.advance_ip (n : Nat) : (s.advance n).ip = s.ip + BitVec.ofNat 32 n := rfl
@[simp] theorem State.advance_sp (n : Nat) : (s.advance n).sp = s.sp := rfl
@[simp] theorem State.advance_bp (n : Nat) : (s.advance n).bp = s.bp := rfl
@[simp] theorem State.advance_callStack (n : Nat) : (s.advance n).callStack = s.callStack := rfl
@[simp] theorem State.advance_code (n : Nat) : (s.advance n).code = s.code := rfl
@[simp] theorem State.advance_data (n : Nat) : (s.advance n).data = s.data := rfl
@[simp] theorem State.advance_runState (n : Nat) : (s.advance n).runState = s.runState := rfl
@[simp] theorem State.advance_waitingFor (n : Nat) : (s.advance n).waitingFor = s.waitingFor := rfl
@[simp] theorem State.advance_params (n : Nat) : (s.advance n).params = s.params := rfl
@[simp] theorem State.advance_input (n : Nat) : (s.advance n).input = s.input := rfl
@[simp] theorem State.advance_output (n : Nat) : (s.advance n).output = s.output := rfl
@[simp] theorem State.advance_snapshots (n : Nat) : (s.advance n).snapshots = s.snapshots := rfl

@[simp] theorem State.faulted_regs (k : Fault) : (s.faulted k).regs = s.regs := rfl
@[simp] theorem State.faulted_ip (k : Fault) : (s.faulted k).ip = s.ip := rfl
@[simp] theorem State.faulted_sp (k : Fault) : (s.faulted k).sp = s.sp := rfl
@[simp] theorem State.faulted_bp (k : Fault) : (s.faulted k).bp = s.bp := rfl
@[simp] theorem State.faulted_callStack (k : Fault) : (s.faulted k).callStack = s.callStack := rfl
@[simp] theorem State.faulted_code (k : Fault) : (s.faulted k).code = s.code := rfl
@[simp] theorem State.faulted_data (k : Fault) : (s.faulted k).data = s.data := rfl
@[simp] theorem State.faulted_runState (k : Fault) : (s.faulted k).runState = .faulted k := rfl
@[simp] theorem State.faulted_waitingFor (k : Fault) : (s.faulted k).waitingFor = s.waitingFor := rfl
@[simp] theorem State.faulted_params (k : Fault) : (s.faulted k).params = s.params := rfl
@[simp] theorem State.faulted_input (k : Fault) : (s.faulted k).input = s.input := rfl
@[simp] theorem State.faulted_output (k : Fault) : (s.faulted k).output = s.output := rfl
@[simp] theorem State.faulted_snapshots (k : Fault) : (s.faulted k).snapshots = s.snapshots := rfl

@[simp] theorem State.halt_regs : s.halt.regs = s.regs := rfl
@[simp] theorem State.halt_ip : s.halt.ip = s.ip := rfl
@[simp] theorem State.halt_sp : s.halt.sp = s.sp := rfl
@[simp] theorem State.halt_bp : s.halt.bp = s.bp := rfl
@[simp] theorem State.halt_callStack : s.halt.callStack = s.callStack := rfl
@[simp] theorem State.halt_code : s.halt.code = s.code := rfl
@[simp] theorem State.halt_data : s.halt.data = s.data := rfl
@[simp] theorem State.halt_runState : s.halt.runState = .exited := rfl
@[simp] theorem State.halt_waitingFor : s.halt.waitingFor = s.waitingFor := rfl
@[simp] theorem State.halt_params : s.halt.params = s.params := rfl
@[simp] theorem State.halt_input : s.halt.input = s.input := rfl
@[simp] theorem State.halt_output : s.halt.output = s.output := rfl
@[simp] theorem State.halt_snapshots : s.halt.snapshots = s.snapshots := rfl

@[simp] theorem State.ioWrite_regs (b : Byte) : (s.ioWrite b).regs = s.regs := rfl
@[simp] theorem State.ioWrite_ip (b : Byte) : (s.ioWrite b).ip = s.ip := rfl
@[simp] theorem State.ioWrite_sp (b : Byte) : (s.ioWrite b).sp = s.sp := rfl
@[simp] theorem State.ioWrite_bp (b : Byte) : (s.ioWrite b).bp = s.bp := rfl
@[simp] theorem State.ioWrite_callStack (b : Byte) : (s.ioWrite b).callStack = s.callStack := rfl
@[simp] theorem State.ioWrite_code (b : Byte) : (s.ioWrite b).code = s.code := rfl
@[simp] theorem State.ioWrite_data (b : Byte) : (s.ioWrite b).data = s.data := rfl
@[simp] theorem State.ioWrite_runState (b : Byte) : (s.ioWrite b).runState = s.runState := rfl
@[simp] theorem State.ioWrite_waitingFor (b : Byte) : (s.ioWrite b).waitingFor = s.waitingFor := rfl
@[simp] theorem State.ioWrite_params (b : Byte) : (s.ioWrite b).params = s.params := rfl
@[simp] theorem State.ioWrite_input (b : Byte) : (s.ioWrite b).input = s.input := rfl
@[simp] theorem State.ioWrite_output (b : Byte) : (s.ioWrite b).output = s.output ++ [b] := rfl
@[simp] theorem State.ioWrite_snapshots (b : Byte) : (s.ioWrite b).snapshots = s.snapshots := rfl

@[simp] theorem State.wait_regs (r : Reg) : (s.wait r).regs = s.regs := rfl
@[simp] theorem State.wait_ip (r : Reg) : (s.wait r).ip = s.ip := rfl
@[simp] theorem State.wait_sp (r : Reg) : (s.wait r).sp = s.sp := rfl
@[simp] theorem State.wait_bp (r : Reg) : (s.wait r).bp = s.bp := rfl
@[simp] theorem State.wait_callStack (r : Reg) : (s.wait r).callStack = s.callStack := rfl
@[simp] theorem State.wait_code (r : Reg) : (s.wait r).code = s.code := rfl
@[simp] theorem State.wait_data (r : Reg) : (s.wait r).data = s.data := rfl
@[simp] theorem State.wait_runState (r : Reg) : (s.wait r).runState = s.runState := rfl
@[simp] theorem State.wait_waitingFor (r : Reg) : (s.wait r).waitingFor = some r := rfl
@[simp] theorem State.wait_params (r : Reg) : (s.wait r).params = s.params := rfl
@[simp] theorem State.wait_input (r : Reg) : (s.wait r).input = s.input := rfl
@[simp] theorem State.wait_output (r : Reg) : (s.wait r).output = s.output := rfl
@[simp] theorem State.wait_snapshots (r : Reg) : (s.wait r).snapshots = s.snapshots := rfl

@[simp] theorem State.debugEmit_regs (n : Snapshot) : (s.debugEmit n).regs = s.regs := rfl
@[simp] theorem State.debugEmit_ip (n : Snapshot) : (s.debugEmit n).ip = s.ip := rfl
@[simp] theorem State.debugEmit_sp (n : Snapshot) : (s.debugEmit n).sp = s.sp := rfl
@[simp] theorem State.debugEmit_bp (n : Snapshot) : (s.debugEmit n).bp = s.bp := rfl
@[simp] theorem State.debugEmit_callStack (n : Snapshot) : (s.debugEmit n).callStack = s.callStack := rfl
@[simp] theorem State.debugEmit_code (n : Snapshot) : (s.debugEmit n).code = s.code := rfl
@[simp] theorem State.debugEmit_data (n : Snapshot) : (s.debugEmit n).data = s.data := rfl
@[simp] theorem State.debugEmit_runState (n : Snapshot) : (s.debugEmit n).runState = s.runState := rfl
@[simp] theorem State.debugEmit_waitingFor (n : Snapshot) : (s.debugEmit n).waitingFor = s.waitingFor := rfl
@[simp] theorem State.debugEmit_params (n : Snapshot) : (s.debugEmit n).params = s.params := rfl
@[simp] theorem State.debugEmit_input (n : Snapshot) : (s.debugEmit n).input = s.input := rfl
@[simp] theorem State.debugEmit_output (n : Snapshot) : (s.debugEmit n).output = s.output := rfl
@[simp] theorem State.debugEmit_snapshots (n : Snapshot) : (s.debugEmit n).snapshots = s.snapshots ++ [n] := rfl

@[simp] theorem State.supplyByte_regs (b : Byte) : (s.supplyByte b).regs = s.regs := rfl
@[simp] theorem State.supplyByte_ip (b : Byte) : (s.supplyByte b).ip = s.ip := rfl
@[simp] theorem State.supplyByte_sp (b : Byte) : (s.supplyByte b).sp = s.sp := rfl
@[simp] theorem State.supplyByte_bp (b : Byte) : (s.supplyByte b).bp = s.bp := rfl
@[simp] theorem State.supplyByte_callStack (b : Byte) : (s.supplyByte b).callStack = s.callStack := rfl
@[simp] theorem State.supplyByte_code (b : Byte) : (s.supplyByte b).code = s.code := rfl
@[simp] theorem State.supplyByte_data (b : Byte) : (s.supplyByte b).data = s.data := rfl
@[simp] theorem State.supplyByte_runState (b : Byte) : (s.supplyByte b).runState = s.runState := rfl
@[simp] theorem State.supplyByte_waitingFor (b : Byte) : (s.supplyByte b).waitingFor = s.waitingFor := rfl
@[simp] theorem State.supplyByte_params (b : Byte) : (s.supplyByte b).params = s.params := rfl
@[simp] theorem State.supplyByte_input (b : Byte) : (s.supplyByte b).input = s.input ++ [b] := rfl
@[simp] theorem State.supplyByte_output (b : Byte) : (s.supplyByte b).output = s.output := rfl
@[simp] theorem State.supplyByte_snapshots (b : Byte) : (s.supplyByte b).snapshots = s.snapshots := rfl

/-- The register written holds the value written. -/
@[simp] theorem State.reg_setReg_same (r : Reg) (v : Word) : (s.setReg r v).reg r = v := by
  simp [State.reg, State.setReg]

/-- A write of one register leaves every other register alone. -/
theorem State.reg_setReg_of_ne {r q : Reg} (h : q ≠ r) (v : Word) : (s.setReg r v).reg q = s.reg q := by
  have h' : r.val ≠ q.val := fun e => h (Fin.ext e.symm)
  simp [State.reg, State.setReg, h']

/-- Read after write, as one equation. -/
theorem State.reg_setReg (r q : Reg) (v : Word) : (s.setReg r v).reg q = if q = r then v else s.reg q := by
  by_cases h : q = r
  · subst h; simp
  · simp [State.reg_setReg_of_ne s h, h]

/-- Writing a register the value it holds changes nothing. -/
@[simp] theorem State.setReg_reg_self (r : Reg) : s.setReg r (s.reg r) = s := by
  cases s; simp [State.setReg, State.reg]

/-- Of two writes of one register the later one stands. -/
@[simp] theorem State.setReg_setReg (r : Reg) (v w : Word) : (s.setReg r v).setReg r w = s.setReg r w := by
  simp [State.setReg]

/-- Writes of two registers commute. -/
theorem State.setReg_comm {r q : Reg} (h : r ≠ q) (v w : Word) :
    (s.setReg r v).setReg q w = (s.setReg q w).setReg r v := by
  have h' : r.val ≠ q.val := fun e => h (Fin.ext e)
  simp [State.setReg, Vector.set_comm _ _ h']

@[simp] theorem State.reg_setIp (v : Word) (q : Reg) : (s.setIp v).reg q = s.reg q := rfl
@[simp] theorem State.reg_setSp (v : Word) (q : Reg) : (s.setSp v).reg q = s.reg q := rfl
@[simp] theorem State.reg_setData (m : Memory) (q : Reg) : (s.setData m).reg q = s.reg q := rfl
@[simp] theorem State.reg_advance (n : Nat) (q : Reg) : (s.advance n).reg q = s.reg q := rfl
@[simp] theorem State.reg_faulted (k : Fault) (q : Reg) : (s.faulted k).reg q = s.reg q := rfl
@[simp] theorem State.reg_halt (q : Reg) : s.halt.reg q = s.reg q := rfl
@[simp] theorem State.reg_ioWrite (b : Byte) (q : Reg) : (s.ioWrite b).reg q = s.reg q := rfl
@[simp] theorem State.reg_wait (r : Reg) (q : Reg) : (s.wait r).reg q = s.reg q := rfl
@[simp] theorem State.reg_debugEmit (n : Snapshot) (q : Reg) : (s.debugEmit n).reg q = s.reg q := rfl
@[simp] theorem State.reg_supplyByte (b : Byte) (q : Reg) : (s.supplyByte b).reg q = s.reg q := rfl

theorem State.setIp_setReg (r : Reg) (v : Word) (w : Word) : (s.setReg r v).setIp w = (s.setIp w).setReg r v := rfl
theorem State.setSp_setReg (r : Reg) (v : Word) (w : Word) : (s.setReg r v).setSp w = (s.setSp w).setReg r v := rfl
theorem State.setData_setReg (r : Reg) (v : Word) (m : Memory) : (s.setReg r v).setData m = (s.setData m).setReg r v := rfl
theorem State.advance_setReg (r : Reg) (v : Word) (n : Nat) : (s.setReg r v).advance n = (s.advance n).setReg r v := rfl
theorem State.faulted_setReg (r : Reg) (v : Word) (k : Fault) : (s.setReg r v).faulted k = (s.faulted k).setReg r v := rfl
theorem State.halt_setReg (r : Reg) (v : Word) : (s.setReg r v).halt = s.halt.setReg r v := rfl
theorem State.ioWrite_setReg (r : Reg) (v : Word) (b : Byte) : (s.setReg r v).ioWrite b = (s.ioWrite b).setReg r v := rfl
theorem State.wait_setReg (r : Reg) (v : Word) (q : Reg) : (s.setReg r v).wait q = (s.wait q).setReg r v := rfl
theorem State.debugEmit_setReg (r : Reg) (v : Word) (n : Snapshot) : (s.setReg r v).debugEmit n = (s.debugEmit n).setReg r v := rfl
theorem State.supplyByte_setReg (r : Reg) (v : Word) (b : Byte) : (s.setReg r v).supplyByte b = (s.supplyByte b).setReg r v := rfl

@[simp] theorem State.resetWith_regs (p : Params) (prog : LoadedProgram) : (State.resetWith p prog).regs = Vector.replicate 256 0 := rfl
@[simp] theorem State.resetWith_ip (p : Params) (prog : LoadedProgram) : (State.resetWith p prog).ip = 0 := rfl
@[simp] theorem State.resetWith_sp (p : Params) (prog : LoadedProgram) : (State.resetWith p prog).sp = BitVec.ofNat 32 p.stackBase := rfl
@[simp] theorem State.resetWith_bp (p : Params) (prog : LoadedProgram) : (State.resetWith p prog).bp = BitVec.ofNat 32 p.stackBase := rfl
@[simp] theorem State.resetWith_callStack (p : Params) (prog : LoadedProgram) : (State.resetWith p prog).callStack = [] := rfl
@[simp] theorem State.resetWith_code (p : Params) (prog : LoadedProgram) : (State.resetWith p prog).code = Memory.ofBytes prog.code := rfl
@[simp] theorem State.resetWith_data (p : Params) (prog : LoadedProgram) : (State.resetWith p prog).data = Memory.ofBytes prog.data := rfl
@[simp] theorem State.resetWith_runState (p : Params) (prog : LoadedProgram) : (State.resetWith p prog).runState = .running := rfl
@[simp] theorem State.resetWith_waitingFor (p : Params) (prog : LoadedProgram) : (State.resetWith p prog).waitingFor = none := rfl
@[simp] theorem State.resetWith_params (p : Params) (prog : LoadedProgram) : (State.resetWith p prog).params = p := rfl
@[simp] theorem State.resetWith_input (p : Params) (prog : LoadedProgram) : (State.resetWith p prog).input = [] := rfl
@[simp] theorem State.resetWith_output (p : Params) (prog : LoadedProgram) : (State.resetWith p prog).output = [] := rfl
@[simp] theorem State.resetWith_snapshots (p : Params) (prog : LoadedProgram) : (State.resetWith p prog).snapshots = [] := rfl

/-- Every register is 0 after reset (R36). -/
@[simp] theorem State.resetWith_reg (p : Params) (prog : LoadedProgram) (r : Reg) :
    (State.resetWith p prog).reg r = 0 := by
  simp [State.reg]

end Sys2Proof.Machine
end

