-- ==== Sys2Proof/Laws/Exec.lean ====
section
/-! SUPPORT. One equation per shared operation and per meaning that can fault or wait: everything it can do, by cases of
its own condition. Later proofs cite these instead of unfolding a meaning. -/

namespace Sys2Proof.Machine

variable (s : State)

/-- The word a segment holds at an offset (R54). -/
def Memory.wordAt (m : Memory) (a : Nat) : Word :=
  wordOf (m.read a) (m.read (a + 1)) (m.read (a + 2)) (m.read (a + 3))

theorem Memory.wordAt_toNat (m : Memory) (a : Nat) :
    (m.wordAt a).toNat = bigEndianValue (m.read a) (m.read (a + 1)) (m.read (a + 2)) (m.read (a + 3)) :=
  wordOf_toNat _ _ _ _

/-- What writing a word's bytes does (R55). -/
theorem Memory.writeBytes_word {m : Memory} (hm : m.wf) {a : Nat} (h : a + 4 ≤ m.size) (v : Word) :
    (m.writeBytes a (wordBytes v)).size = m.size ∧
      (∀ k, k < 4 → (m.writeBytes a (wordBytes v)).read (a + k) = (bigEndianBytes v).getD k 0) ∧
      ∀ b, (b < a ∨ a + 4 ≤ b) → (m.writeBytes a (wordBytes v)).read b = m.read b := by
  refine ⟨by simp, fun k hk => ?_, fun b hb => Memory.read_writeBytes_outside hm (by simpa) (by simpa using hb)⟩
  rw [Memory.read_writeBytes hm (by simpa), if_pos (by simp; omega), wordBytes_eq]
  simp

/-- A word read where it was written is the word written (R57). -/
theorem Memory.wordAt_writeBytes {m : Memory} (hm : m.wf) {a : Nat} (h : a + 4 ≤ m.size) (v : Word) :
    (m.writeBytes a (wordBytes v)).wordAt a = v := by
  obtain ⟨_, h2, _⟩ := Memory.writeBytes_word hm h v
  have h0 := h2 0 (by decide)
  have h1 := h2 1 (by decide)
  have h3 := h2 2 (by decide)
  have h4 := h2 3 (by decide)
  simp only [Nat.add_zero] at h0
  rw [← wordBytes_eq] at h0 h1 h3 h4
  simp only [Memory.wordAt, h0, h1, h3, h4]
  exact wordOf_wordBytes v

theorem raise_eq (k : Fault) : raise k s = .next (s.faulted k) := rfl

theorem State.readWord_eq (a : Int) :
    s.readWord a = if s.data.wordValid a then some (s.data.wordAt a.toNat) else none := rfl

theorem State.writeWord_eq (a : Int) (v : Word) :
    s.writeWord a v =
      if s.data.wordValid a then some (s.setData (s.data.writeBytes a.toNat (wordBytes v))) else none := by
  unfold State.writeWord Memory.writeWord
  split <;> rfl

theorem State.popCall_nil (h : s.callStack = []) : s.popCall = none := by simp [State.popCall, h]

theorem State.popCall_concat {rest : List Word} {v : Word} (h : s.callStack = rest ++ [v]) :
    s.popCall = some (v, { s with callStack := rest }) := by simp [State.popCall, h]

/-- `Call` (R130). -/
theorem exec_call (target : Word) : exec (.call target) s =
    if s.callStack.length = s.params.callDepthMax then .next (s.faulted .stackOverflow)
    else .next { s with callStack := s.callStack ++ [s.ip + 5], ip := target } := by
  by_cases h : s.callStack.length = s.params.callDepthMax
  · simp only [exec, execCall, State.pushCall, if_pos h, raise_eq]
  · simp only [exec, execCall, State.pushCall, if_neg h, State.setIp]

/-- `Ret` on an empty call stack (R131). -/
theorem exec_ret_nil (h : s.callStack = []) : exec .ret s = .next (s.faulted .stackUnderflow) := by
  simp [exec, execRet, s.popCall_nil h, raise_eq]

/-- `Ret` (R131). -/
theorem exec_ret_concat {rest : List Word} {v : Word} (h : s.callStack = rest ++ [v]) :
    exec .ret s = .next { s with callStack := rest, ip := v } := by
  simp [exec, execRet, s.popCall_concat h, State.setIp]

/-- `WriteByte` (R140). -/
theorem exec_writeByte (r : Reg) :
    exec (.writeByte r) s = .next ((s.ioWrite (lowByte (s.reg r))).advance 2) := rfl

/-- `ReadByte` with no byte there (R141). -/
theorem exec_readByte_nil (r : Reg) (h : s.input = []) : exec (.readByte r) s = .next (s.wait r) := by
  simp [exec, execReadByte, State.ioRead, h]

/-- `ReadByte` with a byte there (R141). -/
theorem exec_readByte_cons (r : Reg) {b : Byte} {rest : List Byte} (h : s.input = b :: rest) :
    exec (.readByte r) s =
      .next ((({ s with input := rest, waitingFor := none } : State).setReg r (zeroExtendByte b)).advance 2) := by
  simp [exec, execReadByte, State.ioRead, h]

/-- `Debug` (R142). -/
theorem exec_debug : exec .debug s = .next ((s.debugEmit s.snapshot).advance 1) := rfl

/-- `Exit` (R143). -/
theorem exec_exit : exec .exit s = .next (s.advance 1).halt := rfl

/-- `Nop` (R144). -/
theorem exec_nop : exec .nop s = .next (s.advance 1) := rfl

/-- `Load` (R160). -/
theorem exec_load (addr : Word) (r : Reg) : exec (.load addr r) s =
    if s.data.wordValid addr.toInt then .next ((s.setReg r (s.data.wordAt addr.toInt.toNat)).advance 6)
    else .next (s.faulted .outOfBounds) := by
  simp only [exec, execLoad, absoluteAddress, State.readWord_eq]
  split <;> simp_all [raise_eq]

/-- `Store` (R161). -/
theorem exec_store (r : Reg) (addr : Word) : exec (.store r addr) s =
    if s.data.wordValid addr.toInt then
      .next ((s.setData (s.data.writeBytes addr.toInt.toNat (wordBytes (s.reg r)))).advance 6)
    else .next (s.faulted .outOfBounds) := by
  simp only [exec, execStore, absoluteAddress, State.writeWord_eq]
  split <;> simp_all [raise_eq]

/-- `Push` (R162). -/
theorem exec_push (r : Reg) : exec (.push r) s =
    if s.data.wordValid s.sp.toInt then
      if s.sp.toInt < 4 then .next (s.faulted .stackOverflow)
      else .next (((s.setData (s.data.writeBytes s.sp.toInt.toNat (wordBytes (s.reg r)))).setSp (s.sp - 4)).advance 2)
    else .next (s.faulted .outOfBounds) := by
  simp only [exec, execPush, State.pushAddress, State.spAfterPush, State.writeWord_eq]
  by_cases h : s.data.wordValid s.sp.toInt
  · have h4 : (s.sp.toInt - 4 < 0) = (s.sp.toInt < 4) := by apply propext; omega
    simp only [if_pos h, h4, raise_eq]
  · simp only [if_neg h, raise_eq]

/-- `Pop` (R163). -/
theorem exec_pop (r : Reg) : exec (.pop r) s =
    if s.data.wordValid (s.sp.toInt + 4) then
      .next (((s.setSp (s.sp + 4)).setReg r (s.data.wordAt (s.sp.toInt + 4).toNat)).advance 2)
    else .next (s.faulted .stackUnderflow) := by
  simp only [exec, execPop, State.popAddress, State.readWord_eq]
  split <;> simp_all [raise_eq]

/-- `Fill` (R164). -/
theorem exec_fill (value : Word) (r : Reg) : exec (.fill value r) s = .next ((s.setReg r value).advance 6) := rfl

/-- `Add` (R181). -/
theorem exec_add (d a b : Reg) :
    exec (.add d a b) s = .next ((s.setReg d (aluAdd (s.reg a) (s.reg b))).advance 4) := rfl

/-- `Subtract` (R182). -/
theorem exec_subtract (d a b : Reg) :
    exec (.subtract d a b) s = .next ((s.setReg d (aluSubtract (s.reg a) (s.reg b))).advance 4) := rfl

/-- `Multiply` (R183). -/
theorem exec_multiply (d a b : Reg) :
    exec (.multiply d a b) s = .next ((s.setReg d (aluMultiply (s.reg a) (s.reg b))).advance 4) := rfl

/-- `Divide` (R184). -/
theorem exec_divide (d a b : Reg) : exec (.divide d a b) s =
    if s.reg b = 0#32 then .next (s.faulted .divideByZero)
    else .next ((s.setReg d (wrap32 (truncatedQuotient (s.reg a).toInt (s.reg b).toInt))).advance 4) := by
  simp only [exec, execDivide, aluDivide]
  split <;> simp_all [raise_eq]

/-! ## The ALU -/

/-- `wrap32(v)` is congruent to `v` modulo 2^32 (R5). -/
theorem wrap32_toInt_emod (v : Int) : (wrap32 v).toInt % 2 ^ 32 = v % 2 ^ 32 := by
  rw [wrap32, BitVec.toInt_ofInt, Int.bmod_def]
  split <;> omega

/-- `wrap32(v)` is `v` when `v` is an `i32` (R5). -/
theorem wrap32_toInt_of_range {v : Int} (h1 : -2147483648 ≤ v) (h2 : v ≤ 2147483647) : (wrap32 v).toInt = v := by
  rw [wrap32, BitVec.toInt_ofInt]
  exact Int.bmod_eq_of_le (by omega) (by omega)

theorem aluAdd_eq (a b : Word) : aluAdd a b = a + b := by
  apply BitVec.eq_of_toInt_eq
  simp [aluAdd, wrap32, BitVec.toInt_ofInt, BitVec.toInt_add]

theorem aluSubtract_eq (a b : Word) : aluSubtract a b = a - b := by
  apply BitVec.eq_of_toInt_eq
  simp [aluSubtract, wrap32, BitVec.toInt_ofInt, BitVec.toInt_sub]

theorem aluMultiply_eq (a b : Word) : aluMultiply a b = a * b := by
  apply BitVec.eq_of_toInt_eq
  simp [aluMultiply, wrap32, BitVec.toInt_ofInt, BitVec.toInt_mul]

/-- The truncated quotient as a sign times a quotient of magnitudes (R184). -/
theorem truncatedQuotient_eq (x y : Int) (hy : y ≠ 0) :
    truncatedQuotient x y = (if x = 0 ∨ (x < 0 ↔ y < 0) then 1 else -1) * (|x| / |y|) := by
  have hiff : (x = 0 ∨ (0 < x ↔ 0 < y)) ↔ (x = 0 ∨ (x < 0 ↔ y < 0)) := by omega
  have hq : ((x.natAbs / y.natAbs : Nat) : Int) = |x| / |y| := by
    rw [Int.natCast_ediv, Int.natCast_natAbs, Int.natCast_natAbs]
  unfold truncatedQuotient
  rw [hq]
  by_cases h : x = 0 ∨ (x < 0 ↔ y < 0)
  · rw [if_pos (hiff.mpr h), if_pos h]; ring
  · rw [if_neg (fun h' => h (hiff.mp h')), if_neg h]; ring

/-- The magnitude of the truncated quotient is at most the dividend's. -/
theorem truncatedQuotient_natAbs_le (x y : Int) : (truncatedQuotient x y).natAbs ≤ x.natAbs := by
  unfold truncatedQuotient
  split <;> simp only [Int.natAbs_neg, Int.natAbs_natCast] <;> exact Nat.div_le_self _ _

/-- A byte zero-extended is its unsigned value (R141). -/
theorem zeroExtendByte_toInt (b : Byte) : (zeroExtendByte b).toInt = b.toNat := by
  have := b.isLt
  rw [zeroExtendByte, BitVec.toInt_eq_toNat_of_lt] <;> simp <;> omega

theorem zeroExtendByte_toNat (b : Byte) : (zeroExtendByte b).toNat = b.toNat := by
  have := b.isLt
  rw [zeroExtendByte, BitVec.toNat_setWidth]
  omega

/-- The low byte of a word is its value modulo 256 (R140). -/
theorem lowByte_toNat (v : Word) : (lowByte v).toNat = v.toNat % 256 := by simp [lowByte]

theorem toInt_emod_256 (v : Word) : v.toInt % 256 = (v.toNat % 256 : Nat) := by
  rw [BitVec.toInt_eq_toNat_cond]
  split <;> omega

/-- A word-valid offset that is a register's value is its unsigned value. -/
theorem toInt_eq_toNat_of_nonneg {v : Word} (h : 0 ≤ v.toInt) : v.toInt = (v.toNat : Int) := by
  rw [BitVec.toInt_eq_toNat_cond] at h ⊢
  split at h
  · next hlt => rw [if_pos hlt]
  · have := v.isLt; omega

theorem toInt_toNat_of_nonneg {v : Word} (h : 0 ≤ v.toInt) : v.toInt.toNat = v.toNat := by
  rw [toInt_eq_toNat_of_nonneg h]; simp

/-- Adding a small number to a word that stays in range adds it exactly. -/
theorem toInt_add_ofNat {v : Word} {n : Nat} (h0 : 0 ≤ v.toInt + n) (h : v.toInt + n ≤ 2147483647)
    (hn : n ≤ 2147483647) : (v + BitVec.ofNat 32 n).toInt = v.toInt + n := by
  rw [BitVec.toInt_add]
  have : (BitVec.ofNat 32 n).toInt = n := by
    rw [BitVec.toInt_eq_toNat_of_lt] <;> simp <;> omega
  rw [this]
  exact Int.bmod_eq_of_le (by omega) (by omega)

/-- `Sp - 4`, when `Push` has checked it (R162). -/
theorem toInt_sub_four {sp : Word} (h : 4 ≤ sp.toInt) : (sp - 4).toInt = sp.toInt - 4 := by
  rw [BitVec.toInt_sub]
  have h2 := BitVec.toInt_lt (x := sp)
  simp only [show (4 : Word).toInt = 4 from rfl]
  exact Int.bmod_eq_of_le (by omega) (by simp at h2; omega)

/-- `Sp + 4`, when it is an `i32` (R163). -/
theorem toInt_add_four {sp : Word} (h : sp.toInt + 4 ≤ 2147483647) : (sp + 4).toInt = sp.toInt + 4 := by
  rw [BitVec.toInt_add]
  have h2 := BitVec.le_toInt (x := sp)
  simp only [show (4 : Word).toInt = 4 from rfl]
  exact Int.bmod_eq_of_le (by simp at h2; omega) (by omega)

/-! ## Everything an instruction can do -/

/-- The fault an instruction raises in a state, if any: the causes of R200 that are an instruction's own. -/
def ownFault (s : State) : Instr → Option Fault
  | .call _ => if s.callStack.length = s.params.callDepthMax then some .stackOverflow else none
  | .ret => if s.callStack = [] then some .stackUnderflow else none
  | .load addr _ => if s.data.wordValid addr.toInt then none else some .outOfBounds
  | .store _ addr => if s.data.wordValid addr.toInt then none else some .outOfBounds
  | .push _ =>
    if s.data.wordValid s.sp.toInt then if s.sp.toInt < 4 then some .stackOverflow else none else some .outOfBounds
  | .pop _ => if s.data.wordValid (s.sp.toInt + 4) then none else some .stackUnderflow
  | .divide _ _ b => if s.reg b = 0#32 then some .divideByZero else none
  | .writeByte _ => none
  | .readByte _ => none
  | .debug => none
  | .exit => none
  | .fill _ _ => none
  | .nop => none
  | .add _ _ _ => none
  | .subtract _ _ _ => none
  | .multiply _ _ _ => none

/-- The state an instruction leaves when it raises no fault. -/
def effect (s : State) : Instr → State
  | .call target => { s with callStack := s.callStack ++ [s.ip + 5], ip := target }
  | .ret => { s with callStack := s.callStack.dropLast, ip := s.callStack.getLast?.getD 0 }
  | .writeByte r => (s.ioWrite (lowByte (s.reg r))).advance 2
  | .readByte r =>
    match s.input with
    | [] => s.wait r
    | b :: rest => (({ s with input := rest, waitingFor := none } : State).setReg r (zeroExtendByte b)).advance 2
  | .debug => (s.debugEmit s.snapshot).advance 1
  | .exit => (s.advance 1).halt
  | .load addr r => (s.setReg r (s.data.wordAt addr.toInt.toNat)).advance 6
  | .store r addr => (s.setData (s.data.writeBytes addr.toInt.toNat (wordBytes (s.reg r)))).advance 6
  | .push r => ((s.setData (s.data.writeBytes s.sp.toInt.toNat (wordBytes (s.reg r)))).setSp (s.sp - 4)).advance 2
  | .pop r => ((s.setSp (s.sp + 4)).setReg r (s.data.wordAt (s.sp.toInt + 4).toNat)).advance 2
  | .fill value r => (s.setReg r value).advance 6
  | .nop => s.advance 1
  | .add d a b => (s.setReg d (aluAdd (s.reg a) (s.reg b))).advance 4
  | .subtract d a b => (s.setReg d (aluSubtract (s.reg a) (s.reg b))).advance 4
  | .multiply d a b => (s.setReg d (aluMultiply (s.reg a) (s.reg b))).advance 4
  | .divide d a b => (s.setReg d (wrap32 (truncatedQuotient (s.reg a).toInt (s.reg b).toInt))).advance 4

/-- Everything an instruction can do, in one equation: raise its own fault, or have its effect. -/
theorem exec_eq (i : Instr) :
    exec i s = .next (match ownFault s i with | some k => s.faulted k | none => effect s i) := by
  cases i with
  | call target => rw [exec_call]; simp only [ownFault]; split <;> rfl
  | ret =>
    rcases List.eq_nil_or_concat s.callStack with h | ⟨rest, v, h⟩
    · simp [exec_ret_nil s h, ownFault, h]
    · rw [exec_ret_concat s (by simpa using h)]
      simp [ownFault, effect, h]
  | readByte r =>
    cases h : s.input with
    | nil => simp [exec_readByte_nil s r h, ownFault, effect, h]
    | cons b rest => simp [exec_readByte_cons s r h, ownFault, effect, h]
  | load addr r => rw [exec_load]; simp only [ownFault]; split <;> rfl
  | store r addr => rw [exec_store]; simp only [ownFault]; split <;> rfl
  | push r => rw [exec_push]; simp only [ownFault]; split <;> [split; skip] <;> rfl
  | pop r => rw [exec_pop]; simp only [ownFault]; split <;> rfl
  | divide d a b => rw [exec_divide]; simp only [ownFault]; split <;> rfl
  | _ => rfl

/-- The inversion of `exec`: what a next state is. -/
theorem exec_cases {s t : State} {i : Instr} (h : exec i s = .next t) :
    (∃ k, ownFault s i = some k ∧ t = s.faulted k) ∨ (ownFault s i = none ∧ t = effect s i) := by
  rw [exec_eq] at h
  cases hk : ownFault s i with
  | some k => rw [hk] at h; cases h; exact .inl ⟨k, rfl, rfl⟩
  | none => rw [hk] at h; cases h; exact .inr ⟨rfl, rfl⟩

theorem input_cases (s : State) : s.input = [] ∨ ∃ b rest, s.input = b :: rest := by
  cases s.input with
  | nil => exact .inl rfl
  | cons b rest => exact .inr ⟨b, rest, rfl⟩

theorem effect_readByte_nil {s : State} (h : s.input = []) (r : Reg) : effect s (.readByte r) = s.wait r := by
  simp [effect, h]

theorem effect_readByte_cons {s : State} {b : Byte} {rest : List Byte} (h : s.input = b :: rest) (r : Reg) :
    effect s (.readByte r) =
      (({ s with input := rest, waitingFor := none } : State).setReg r (zeroExtendByte b)).advance 2 := by
  simp [effect, h]

/-- An instruction's own fault is neither of the fetch nor of the decode. -/
theorem ownFault_ne (i : Instr) : ownFault s i ≠ some .unableToFetch ∧ ownFault s i ≠ some .invalidInstruction := by
  cases i <;> simp only [ownFault] <;> (try split) <;> (try split) <;> simp

/-- What an effect does to the run state: `Exit` halts, every other one leaves it. -/
theorem effect_runState (i : Instr) : (effect s i).runState = if i = .exit then .exited else s.runState := by
  cases i with
  | readByte r => rcases input_cases s with h | ⟨b, rest, h⟩ <;> simp [effect, h]
  | _ => simp [effect]

/-- An effect is no fault. -/
theorem effect_running {s : State} {i : Instr} (hr : s.runState = .running) (k : Fault) :
    (effect s i).runState ≠ .faulted k := by
  rw [effect_runState]
  split <;> simp [hr]

/-- Only `Exit` leaves the state Exited. -/
theorem effect_exited {s : State} {i : Instr} (hr : s.runState = .running) :
    (effect s i).runState = .exited ↔ i = .exit := by
  rw [effect_runState]
  split <;> simp [*]

/-- Only a `ReadByte` with no byte there begins a wait (R33). -/
theorem effect_waiting {s : State} {i : Instr} (hr : s.waitingFor = none) (hw : (effect s i).waitingFor ≠ none) :
    ∃ r, i = .readByte r ∧ s.input = [] := by
  cases i with
  | readByte r =>
    rcases input_cases s with h | ⟨b, rest, h⟩
    · exact ⟨r, rfl, h⟩
    · simp [effect_readByte_cons h] at hw
  | _ => simp [effect, hr] at hw

/-- No effect touches the code, the parameters, `Bp` or the size of the data segment (R27, R31, R35, R65). -/
theorem effect_frame (i : Instr) : (effect s i).code = s.code ∧ (effect s i).params = s.params ∧
    (effect s i).bp = s.bp ∧ (effect s i).data.size = s.data.size := by
  cases i with
  | readByte r => rcases input_cases s with h | ⟨b, rest, h⟩ <;> simp [effect, h]
  | _ => simp [effect]

/-- An effect keeps the data segment in canonical form. -/
theorem effect_data_wf {s : State} (h : s.data.wf) (i : Instr) : (effect s i).data.wf := by
  cases i with
  | store r a => exact Memory.writeBytes_wf h _ _
  | push r => exact Memory.writeBytes_wf h _ _
  | readByte r => rcases input_cases s with h' | ⟨b, rest, h'⟩ <;> simpa [effect, h'] using h
  | _ => exact h

/-- An instruction that leaves the block running has had its effect. -/
theorem exec_running {i : Instr} {s t : State} (h : exec i s = .next t) (ht : t.runState = .running) :
    ownFault s i = none ∧ t = effect s i := by
  rcases exec_cases h with ⟨k, hk, rfl⟩ | h
  · cases ht
  · exact h

/-- A `Push` that leaves the block running found room at `Sp` and below it (R162). -/
theorem exec_push_running {r : Reg} {s t : State} (h : exec (.push r) s = .next t) (ht : t.runState = .running) :
    s.data.wordValid s.sp.toInt ∧ 4 ≤ s.sp.toInt ∧ t = effect s (.push r) := by
  obtain ⟨hk, rfl⟩ := exec_running h ht
  simp only [ownFault] at hk
  split at hk
  · next h1 =>
    split at hk
    · cases hk
    · exact ⟨h1, by omega, rfl⟩
  · cases hk

end Sys2Proof.Machine
end

