-- ==== Sys2Proof/Laws/Loader.lean ====
section
/-! SUPPORT. The loader's parts: a header offset where it was written, a section where it was placed, and the symbol
table's entries there and back (R242 to R244). -/

namespace Sys2Proof.Machine

/-- Four big-endian bytes read back as the word, wherever they stand in a buffer (R56, R242). -/
theorem immAt_bytes (v : Word) (pre rest : List Byte) : immAt (pre ++ bigEndianBytes v ++ rest) pre.length = v := by
  have key : ∀ k, k < 4 →
      byteAt (pre ++ bigEndianBytes v ++ rest) (pre.length + k) = (wordBytes v).getD k 0#8 := by
    intro k hk
    rw [wordBytes_eq]
    simp only [byteAt, List.append_assoc]
    rw [List.getD_append_right _ _ _ _ (by omega), show pre.length + k - pre.length = k by omega,
      List.getD_append _ _ _ _ (by simpa using hk)]
  have h0 := key 0 (by decide)
  simp only [Nat.add_zero] at h0
  unfold immAt
  rw [h0, key 1 (by decide), key 2 (by decide), key 3 (by decide)]
  exact wordOf_wordBytes v

/-- The three offsets of a header (R242). -/
theorem header_offsets (a b c : Word) (rest : List Byte) :
    immAt (bigEndianBytes a ++ bigEndianBytes b ++ bigEndianBytes c ++ rest) 0 = a ∧
      immAt (bigEndianBytes a ++ bigEndianBytes b ++ bigEndianBytes c ++ rest) 4 = b ∧
      immAt (bigEndianBytes a ++ bigEndianBytes b ++ bigEndianBytes c ++ rest) 8 = c := by
  refine ⟨?_, ?_, ?_⟩
  · simpa using immAt_bytes a [] (bigEndianBytes b ++ bigEndianBytes c ++ rest)
  · simpa using immAt_bytes b (bigEndianBytes a) (bigEndianBytes c ++ rest)
  · simpa using immAt_bytes c (bigEndianBytes a ++ bigEndianBytes b) rest

/-- A natural below 2^31 as a word has itself as its value. -/
theorem toInt_ofNat {n : Nat} (h : n ≤ 2147483647) : (BitVec.ofNat 32 n).toInt = n := by
  rw [BitVec.toInt_eq_toNat_of_lt] <;> simp <;> omega

/-- The bytes between two others. -/
theorem slice_mid (a b c : List Byte) {x y : Nat} (hx : x = a.length) (hy : y = a.length + b.length) :
    slice (a ++ b ++ c) x y = b := by
  subst hx hy
  simp [slice]

theorem length_le_symbolTableBytes (ys : List Symbol) : ys.length ≤ (symbolTableBytes ys).length := by
  induction ys with
  | nil => simp [symbolTableBytes]
  | cons y ys ih => simp [symbolTableBytes]; omega

/-- The entries read back from their bytes (R244). -/
theorem parseSymbols_symbolTableBytes {clen : Nat} (ys : List Symbol) (h : ∀ y ∈ ys, y.wellFormed clen = true)
    {fuel : Nat} (hf : ys.length ≤ fuel) : parseSymbols clen fuel (symbolTableBytes ys) = .ok ys := by
  induction ys generalizing fuel with
  | nil => cases fuel <;> rfl
  | cons y ys ih =>
    cases fuel with
    | zero => simp at hf
    | succ fuel =>
      have hy := h y (by simp)
      simp only [Symbol.wellFormed, Bool.and_eq_true, decide_eq_true_eq] at hy
      obtain ⟨⟨h1, h2⟩, h3⟩ := hy
      have hn : (BitVec.ofNat 8 y.name.length).toNat = y.name.length := by simp; omega
      have hd : (y.name ++ wordBytes y.codeOffset ++ symbolTableBytes ys).drop y.name.length =
          wordBytes y.codeOffset ++ symbolTableBytes ys := by simp
      have ht : (y.name ++ wordBytes y.codeOffset ++ symbolTableBytes ys).take y.name.length = y.name := by simp
      simp only [symbolTableBytes, parseSymbols, hn, ← wordBytes_eq, hd, ht]
      rw [if_neg (by simp)]
      simp only [wordBytes, List.cons_append, List.nil_append, wordOf_wordBytes]
      rw [if_pos ⟨h2, h3⟩, ih (fun z hz => h z (by simp [hz])) (by simpa using hf)]

/-- Every entry read is in range (R244). -/
theorem parseSymbols_wellFormed {clen fuel : Nat} {bs : List Byte} {ys : List Symbol}
    (h : parseSymbols clen fuel bs = .ok ys) : ∀ y ∈ ys, y.wellFormed clen = true := by
  induction fuel generalizing bs ys with
  | zero =>
    cases bs with
    | nil => simp only [parseSymbols] at h; cases h; simp
    | cons b bs => simp [parseSymbols] at h
  | succ fuel ih =>
    cases bs with
    | nil => simp only [parseSymbols] at h; cases h; simp
    | cons n rest =>
      simp only [parseSymbols] at h
      split at h
      · cases h
      · split at h
        · split at h
          · next hr =>
            split at h
            · next zs hz =>
              cases h
              intro y hy
              rcases List.mem_cons.mp hy with rfl | hy
              · have := n.isLt
                simp [Symbol.wellFormed, hr]; omega
              · exact ih hz y hy
            · cases h
          · cases h
        · cases h

end Sys2Proof.Machine
end

