-- ==== Sys2Proof/Laws/PerInstr.lean ====
section
/-! SUPPORT. Statements about every instruction as syntax, one lemma per constructor. -/

namespace Sys2Proof.Laws.EncodedSize

/-- An instruction's encoding is as long as its opcode says and as its operands take, begins with its opcode byte, and
just fits in a code segment that ends with it (R80, R86, R90). -/
def Statement (i : Instr) : Prop :=
  (encode i).length = i.size ∧ i.size = i.byteLength ∧ (encode i).head? = some (BitVec.ofNat 8 i.opcode) ∧
    i.wellFormedAt 0 i.size = true

theorem call (target : Word) : Statement (.call target) := ⟨rfl, rfl, rfl, rfl⟩
theorem ret : Statement (.ret) := ⟨rfl, rfl, rfl, rfl⟩
theorem writeByte (r : Reg) : Statement (.writeByte r) := ⟨rfl, rfl, rfl, rfl⟩
theorem readByte (r : Reg) : Statement (.readByte r) := ⟨rfl, rfl, rfl, rfl⟩
theorem debug : Statement (.debug) := ⟨rfl, rfl, rfl, rfl⟩
theorem exit : Statement (.exit) := ⟨rfl, rfl, rfl, rfl⟩
theorem load (addr : Word) (r : Reg) : Statement (.load addr r) := ⟨rfl, rfl, rfl, rfl⟩
theorem store (r : Reg) (addr : Word) : Statement (.store r addr) := ⟨rfl, rfl, rfl, rfl⟩
theorem push (r : Reg) : Statement (.push r) := ⟨rfl, rfl, rfl, rfl⟩
theorem pop (r : Reg) : Statement (.pop r) := ⟨rfl, rfl, rfl, rfl⟩
theorem fill (value : Word) (r : Reg) : Statement (.fill value r) := ⟨rfl, rfl, rfl, rfl⟩
theorem nop : Statement (.nop) := ⟨rfl, rfl, rfl, rfl⟩
theorem add (d a b : Reg) : Statement (.add d a b) := ⟨rfl, rfl, rfl, rfl⟩
theorem subtract (d a b : Reg) : Statement (.subtract d a b) := ⟨rfl, rfl, rfl, rfl⟩
theorem multiply (d a b : Reg) : Statement (.multiply d a b) := ⟨rfl, rfl, rfl, rfl⟩
theorem divide (d a b : Reg) : Statement (.divide d a b) := ⟨rfl, rfl, rfl, rfl⟩

end Sys2Proof.Laws.EncodedSize
end

