-- ==== Sys2Proof/Laws/Step.lean ====
section
/-! SUPPORT. What a step can do, said once: the fetch by its condition, and the inversion of `step`. -/

namespace Sys2Proof.Machine

variable {s t : State}

theorem ipInCode_iff : s.ipInCode ↔ 0 ≤ s.ip.toInt ∧ s.ip.toInt < (s.code.size : Int) := Iff.rfl

/-- When the fetch and decode give an instruction (R111, R112). -/
theorem nextInstr_eq_ok {i : Instr} :
    s.nextInstr = .ok i ↔ s.ipInCode ∧ ∃ n, decode s.codeFrom = .instr i n := by
  unfold State.nextInstr
  rw [decode_fetchWindow]
  by_cases h : s.ipInCode
  · rw [if_pos h]
    cases hd : decode s.codeFrom with
    | instr j n => exact ⟨fun e => by cases e; exact ⟨h, n, rfl⟩, fun ⟨_, m, e⟩ => by cases e; rfl⟩
    | unrecognizedOpcode op => simp
    | insufficientBytes => simp
  · rw [if_neg h]
    simp [h]

theorem nextInstr_of_outside (h : ¬ s.ipInCode) : s.nextInstr = .error .unableToFetch := if_neg h

/-- The instruction a beginning step executes. -/
theorem executes_iff {i : Instr} : s.executes i ↔ s.ready ∧ s.nextInstr = .ok i := by
  rw [State.executes, nextInstr_eq_ok]

theorem executes_unique {i j : Instr} (hi : s.executes i) (hj : s.executes j) : i = j := by
  have h1 := (executes_iff.mp hi).2
  have h2 := (executes_iff.mp hj).2
  rw [h1] at h2
  cases h2; rfl

/-- A failed fetch and decode is one of two faults, the fetch check first (R119). -/
theorem nextInstr_eq_error {k : Fault} (h : s.nextInstr = .error k) :
    (k = .unableToFetch ∧ ¬ s.ipInCode) ∨
      (k = .invalidInstruction ∧ s.ipInCode ∧ ∀ i n, decode s.codeFrom ≠ .instr i n) := by
  unfold State.nextInstr at h
  rw [decode_fetchWindow] at h
  by_cases hc : s.ipInCode
  · rw [if_pos hc] at h
    right
    cases hd : decode s.codeFrom with
    | instr i n => rw [hd] at h; cases h
    | unrecognizedOpcode op => rw [hd] at h; cases h; exact ⟨rfl, hc, by simp⟩
    | insufficientBytes => rw [hd] at h; cases h; exact ⟨rfl, hc, by simp⟩
  · rw [if_neg hc] at h
    cases h
    exact .inl ⟨rfl, hc⟩

theorem step_of_ended (h : s.ended) : step s = .next s := by
  unfold step
  cases hr : s.runState with
  | running => exact absurd hr h
  | exited => rfl
  | faulted k => rfl

theorem step_of_waiting {r : Reg} (h : s.runState = .running) (hw : s.waitingFor = some r) :
    step s = exec (.readByte r) s := by simp [step, h, hw]

theorem step_of_ok {i : Instr} (h : s.ready) (hi : s.nextInstr = .ok i) : step s = exec i s := by
  simp [step, h.1, h.2, hi]

theorem step_of_error {k : Fault} (h : s.ready) (hk : s.nextInstr = .error k) : step s = .next (s.faulted k) := by
  simp [step, h.1, h.2, hk, raise_eq]

/-- Everything a step can do: stay ended, go on with a waiting `ReadByte`, raise a fault of the fetch or decode, or execute
the instruction at `Ip`. -/
theorem step_cases (h : step s = .next t) :
    (s.ended ∧ t = s) ∨
    (∃ r, s.runState = .running ∧ s.waitingFor = some r ∧ exec (.readByte r) s = .next t) ∨
    (∃ k, s.ready ∧ s.nextInstr = .error k ∧ t = s.faulted k) ∨
    (∃ i, s.executes i ∧ exec i s = .next t) := by
  by_cases hr : s.runState = .running
  · cases hw : s.waitingFor with
    | some r => exact .inr (.inl ⟨r, hr, rfl, by rwa [step_of_waiting hr hw] at h⟩)
    | none =>
      cases hn : s.nextInstr with
      | error k =>
        rw [step_of_error ⟨hr, hw⟩ hn] at h
        cases h
        exact .inr (.inr (.inl ⟨k, ⟨hr, hw⟩, rfl, rfl⟩))
      | ok i =>
        rw [step_of_ok ⟨hr, hw⟩ hn] at h
        exact .inr (.inr (.inr ⟨i, executes_iff.mpr ⟨⟨hr, hw⟩, hn⟩, h⟩))
  · rw [step_of_ended hr] at h
    cases h
    exact .inl ⟨hr, rfl⟩

/-- A run whose first step gives `t` goes on from `t`. -/
theorem run_succ (h : step s = .next t) (n : Nat) :
    Host.Core.run Sys2Proof.core (n + 1) s = Host.Core.run Sys2Proof.core n t := by
  have h' : Sys2Proof.core.step s = .next t := h
  simp only [Host.Core.run, h']

/-- A state that a step leaves as it is stays for any number of steps. -/
theorem run_of_step_self (h : step s = .next s) (n : Nat) : Host.Core.run Sys2Proof.core n s = .next s := by
  induction n with
  | zero => rfl
  | succ n ih => rw [run_succ h, ih]

/-- An executed instruction lies inside the code (R87). -/
theorem executes_fits {i : Instr} (h : s.executes i) :
    0 ≤ s.ip.toInt ∧ s.ip.toInt + i.size ≤ (s.code.size : Int) := by
  obtain ⟨_, hc, n, hd⟩ := h
  have hn := decode_size hd
  obtain ⟨_, _, _, _, _, hl⟩ := decode_eq_instr.mp hd
  simp only [State.codeFrom, Memory.bytes_length] at hl
  have h0 := toInt_eq_toNat_of_nonneg hc.1
  have := hc.2
  subst hn
  omega

/-- The code from `Ip` begins with the opcode byte. -/
theorem codeFrom_cons (h : s.ipInCode) :
    ∃ rest, s.codeFrom = s.code.read s.ip.toNat :: rest ∧ rest.length + 1 = s.code.size - s.ip.toNat := by
  have h1 := toInt_eq_toNat_of_nonneg h.1
  have h2 := h.2
  have hl : s.codeFrom.length = s.code.size - s.ip.toNat := by simp [State.codeFrom]
  cases hc : s.codeFrom with
  | nil => rw [hc] at hl; simp at hl; omega
  | cons b rest =>
    refine ⟨rest, ?_, by rw [← hl, hc]; rfl⟩
    congr 1
    have : s.codeFrom[0]? = some b := by rw [hc]; rfl
    rw [State.codeFrom, List.getElem?_eq_getElem (by simp; omega), Memory.bytes_getElem] at this
    simpa using this.symm

/-- When the bytes at `Ip` decode (R87). -/
theorem decodes_iff (hc : s.ipInCode) :
    (∃ i n, decode s.codeFrom = .instr i n) ↔
      ¬ (16 ≤ (s.code.read s.ip.toNat).toNat ∨
        s.code.size - s.ip.toNat < sizeColumn.getD (s.code.read s.ip.toNat).toNat 0) := by
  obtain ⟨rest, hr, hl⟩ := codeFrom_cons hc
  rw [hr]
  simp only [decode_eq_instr]
  constructor
  · rintro ⟨i, n, op, rest', h1, h2, h3, h4⟩
    cases h1
    obtain ⟨h5, h6⟩ := opcodeSize_eq_some h2
    rw [h6]; simp at h4; omega
  · intro h
    have h16 : (s.code.read s.ip.toNat).toNat < 16 := by omega
    have ho : (operandsOf (s.code.read s.ip.toNat).toNat (s.code.read s.ip.toNat :: rest)).isSome := by
      rw [operandsOf_isSome]; simpa using h16
    obtain ⟨i, hi⟩ := Option.isSome_iff_exists.mp ho
    exact ⟨i, _, _, _, rfl, opcodeSize_of_lt h16, hi, by rw [List.length_cons]; omega⟩

/-- A step that begins outside the code (R111). -/
theorem step_of_outside (hr : s.ready) (h : s.ip.toInt < 0 ∨ (s.code.size : Int) ≤ s.ip.toInt) :
    step s = .next (s.faulted .unableToFetch) :=
  step_of_error hr (nextInstr_of_outside (by intro hc; have := hc.1; have := hc.2; omega))

/-- A wait with no byte supplied goes on (R33). -/
theorem step_of_starved (h : s.starved) : step s = .next s := by
  obtain ⟨h1, h2, h3⟩ := h
  cases hw : s.waitingFor with
  | none => exact absurd hw h2
  | some r =>
    rw [step_of_waiting h1 hw, exec_readByte_nil s r h3]
    cases s; cases hw; rfl

/-- The causes of R200, for a step that executes an instruction, are that instruction's own fault. -/
theorem faultCause_iff_ownFault {i : Instr} (h : s.executes i) (k : Fault) :
    s.faultCause k ↔ ownFault s i = some k := by
  have hu : ∀ j, s.executes j ↔ i = j := fun j => ⟨fun hj => executes_unique h hj, fun e => e ▸ h⟩
  obtain ⟨hr, hc, n, hd⟩ := h
  cases k with
  | unableToFetch => exact iff_of_false (fun h => h hc) (ownFault_ne s i).1
  | invalidInstruction =>
    have := (decodes_iff hc).mp ⟨i, n, hd⟩
    exact iff_of_false (fun h => this h.2) (ownFault_ne s i).2
  | _ =>
    simp only [State.faultCause, hu]
    cases i with
    | push r => by_cases h1 : s.data.wordValid s.sp.toInt <;> by_cases h2 : s.sp.toInt < 4 <;> simp [ownFault, h1, h2]
    | load a r => by_cases h1 : s.data.wordValid a.toInt <;> simp [ownFault, h1]
    | store r a => by_cases h1 : s.data.wordValid a.toInt <;> simp [ownFault, h1]
    | pop r => by_cases h1 : s.data.wordValid (s.sp.toInt + 4) <;> simp [ownFault, h1]
    | _ => simp [ownFault]

/-- Everything a step that begins can do: raise the fault whose cause holds, or execute an instruction to its effect. -/
theorem step_ready_cases (hr : s.ready) (h : step s = .next t) :
    (∃ k, s.faultCause k ∧ t = s.faulted k) ∨ (∃ i, s.executes i ∧ ownFault s i = none ∧ t = effect s i) := by
  rcases step_cases h with ⟨he, _⟩ | ⟨r, _, hw, _⟩ | ⟨k, _, hk, rfl⟩ | ⟨i, hi, he⟩
  · exact absurd hr.1 he
  · rw [hr.2] at hw; cases hw
  · refine .inl ⟨k, ?_, rfl⟩
    rcases nextInstr_eq_error hk with ⟨rfl, hc⟩ | ⟨rfl, hc, hd⟩
    · exact hc
    · refine ⟨hc, ?_⟩
      by_contra hn
      obtain ⟨i, n, hd'⟩ := (decodes_iff hc).mpr hn
      exact hd i n hd'
  · rcases exec_cases he with ⟨k, hk, rfl⟩ | ⟨hk, rfl⟩
    · exact .inl ⟨k, (faultCause_iff_ownFault hi k).mpr hk, rfl⟩
    · exact .inr ⟨i, hi, hk, rfl⟩

end Sys2Proof.Machine
end

