-- ==== Sys2Proof/Tests/Slice0.lean ====
section
/-! SUPPORT. Tests and witnesses. The expected values of the tests are the vectors of spec/95_test_vectors.md (W, D, S,
K, O, M, A numbers) and the examples of the rules; no test takes its expectation from the model. A theorem
`witness_<Name>_…` shows values that meet the hypotheses of the obligation `<Name>`, one for each clause. -/

namespace Sys2Proof.Tests

open Sys2Proof Sys2Proof.Machine

/-- A reset with a program of the given code and data bytes, STACK_BASE and CALL_DEPTH_MAX. -/
def boot (code data : List Byte) (base depth : Nat) : State := State.resetWith ⟨base, depth⟩ ⟨[], code, data⟩

/-- The state after one step. -/
def after (s : State) : State := (nextState (step s)).getD s

/-- The state after one instruction. -/
def ran (i : Instr) (s : State) : State := (nextState (exec i s)).getD s

/-! ## WellFormed refuses ill-formed terms -/

/-- R87: a six-byte instruction with five bytes left. -/
theorem test_wellFormed_truncated_refused : (Instr.load 0 0).wellFormedAt 1 6 = false := by decide
theorem test_wellFormed_fitting_accepted : (Instr.load 0 0).wellFormedAt 1 7 = true := by decide
/-- R4: STACK_BASE is at most 2^31 - 1. -/
theorem test_wellFormed_stackBase_refused : (Params.mk 2147483648 0).wellFormed = false := by decide
theorem test_wellFormed_params_accepted : (Params.mk 2147483647 0).wellFormed = true := by decide
/-- R244: a name length is one byte. -/
theorem test_wellFormed_longName_refused (name : List Byte) (h : 255 < name.length) :
    (Symbol.mk name 0).wellFormed 1 = false := by simp [Symbol.wellFormed, h]
/-- R244: a code offset outside `[0, CLEN)`. -/
theorem test_wellFormed_symbolOffset_refused :
    (Symbol.mk [0x61] 1).wellFormed 1 = false ∧ (Symbol.mk [0x61] (-1)).wellFormed 1 = false := by decide
/-- R244: a program whose only symbol is out of its (empty) code. -/
theorem test_wellFormed_program_refused : (LoadedProgram.mk [⟨[], 0⟩] [] []).wellFormed = false := by decide
/-- R4, D5: a code or data section longer than 2^31 - 1 bytes. -/
theorem test_wellFormed_longSection_refused (code : List Byte) (h : intMax < code.length) :
    (LoadedProgram.mk [] code []).wellFormed = false ∧ (LoadedProgram.mk [] [] code).wellFormed = false := by
  simp [LoadedProgram.wellFormed, h]
theorem test_wellFormed_program_accepted : (LoadedProgram.mk [⟨[0x61], 0⟩] [0x0B] []).wellFormed = true := by decide

/-! ## Decoding: words written out from R81 and R86 -/

theorem test_decode_call : decode [0x00, 0x00, 0x00, 0x00, 0x06] = .instr (.call 6) 5 := by decide           -- D1
theorem test_decode_call_negative : decode [0x00, 0xFF, 0xFF, 0xFF, 0xFF] = .instr (.call (-1)) 5 := by decide -- D2
theorem test_decode_ret : decode [0x01, 0x07, 0x07] = .instr .ret 1 := by decide                              -- D4, W8
theorem test_decode_writeByte : decode [0x02, 0xFF] = .instr (.writeByte 255) 2 := by decide                  -- D5
theorem test_decode_readByte : decode [0x03, 0x07] = .instr (.readByte 7) 2 := by decide                      -- R141
theorem test_decode_debug : decode [0x04] = .instr .debug 1 := by decide                                      -- D7
theorem test_decode_exit : decode [0x05] = .instr .exit 1 := by decide                                        -- D7
theorem test_decode_load : decode [0x06, 0x00, 0x00, 0x00, 0x0C, 0xFF] = .instr (.load 12 255) 6 := by decide -- W9
theorem test_decode_store :
    decode [0x07, 0x02, 0x80, 0x00, 0x00, 0x00] = .instr (.store 2 (BitVec.ofInt 32 (-2147483648))) 6 := by decide -- D9
theorem test_decode_push : decode [0x08, 0x00] = .instr (.push 0) 2 := by decide                              -- D10
theorem test_decode_pop : decode [0x09, 0x10] = .instr (.pop 16) 2 := by decide                               -- D10
theorem test_decode_fill :
    decode [0x0A, 0x7F, 0xFF, 0xFF, 0xFF, 0x10] = .instr (.fill 2147483647 16) 6 := by decide                 -- D11
theorem test_decode_nop : decode [0x0B] = .instr .nop 1 := by decide                                          -- D7
theorem test_decode_add : decode [0x0C, 0x01, 0x02, 0x03, 0x99] = .instr (.add 1 2 3) 4 := by decide          -- D13
theorem test_decode_subtract :
    decode [0x0D, 0xFF, 0xFF, 0xFF] = .instr (.subtract 255 255 255) 4 := by decide                           -- D14
theorem test_decode_multiply : decode [0x0E, 0x00, 0x01, 0x02] = .instr (.multiply 0 1 2) 4 := by decide      -- R183
theorem test_decode_divide : decode [0x0F, 0x05, 0x04, 0x00] = .instr (.divide 5 4 0) 4 := by decide          -- D14

/-- D3, D6, D12, D15, D16, and no byte at all. -/
theorem test_decode_none :
    decode [0x00, 0x00, 0x00, 0x00] = .insufficientBytes ∧ decode [0x03] = .insufficientBytes ∧
    decode [0x0A, 0x00, 0x00] = .insufficientBytes ∧ decode [0x10] = .unrecognizedOpcode 0x10 ∧
    decode [0xFF, 0, 0, 0, 0, 0] = .unrecognizedOpcode 0xFF ∧ decode [] = .insufficientBytes := by decide

/-- W1, W2, W10. -/
theorem test_wordOf :
    wordOf 0x12 0x34 0x56 0x78 = 305419896 ∧ wordBytes 305419896 = [0x12, 0x34, 0x56, 0x78] ∧
    (wordOf 0x80 0 0 0).toInt = -2147483648 ∧ (wordOf 0xFF 0xFF 0xFF 0xFF).toInt = -1 ∧
    wordOfSlice [1, 2, 3] = none ∧ wordOfSlice [1, 2, 3, 4, 5] = none := by decide

/-- R96's bytes column, the two formats with an immediate and a register. -/
theorem test_encode : encode (.load 12 255) = [0x06, 0x00, 0x00, 0x00, 0x0C, 0xFF] ∧
    encode (.store 1 4) = [0x07, 0x01, 0x00, 0x00, 0x00, 0x04] := by decide

/-- The numbering of spec/opcode_table.json: bit 0 is the least significant bit of the first byte. -/
theorem test_decodeTableWord : decodeTableWord 8 0x05 = some .exit ∧ decodeTableWord 32 0x0302010C = some (.add 1 2 3) ∧
    decodeTableWord 8 0x06 = some (.load 0 0) ∧ decodeTableWord 8 0x10 = none := by decide

/-- The instruction placed after reset is the one the very next step runs. -/
theorem test_withFetchWord :
    (after (State.reset.withFetchWord 48 0x032A0000000A)).reg 3 = 42 ∧
    (after (State.reset.withFetchWord 8 0x05)).runState = .exited := by decide

/-! ## Steps -/

/-- S1, S2, S3: the fetch check, and a truncated instruction. -/
theorem test_fetch_empty_code : (after (boot [] [] 0 1)).runState = .faulted .unableToFetch := by decide
theorem test_fetch_at_clen :
    (after ((boot [0x0B] [] 0 1).setIp 1)).runState = .faulted .unableToFetch := by decide                    -- W12
theorem test_decode_truncated :
    (after (boot [0x0A, 0, 0] [] 0 1)).runState = .faulted .invalidInstruction := by decide

/-- R130's example; K4. -/
theorem test_call : (ran (.call 6) (boot [] [] 0 1)).callStack = [5] ∧ (ran (.call 6) (boot [] [] 0 1)).ip = 6 := by
  decide
theorem test_call_depth_zero : (ran (.call 0) (boot [] [] 0 0)).runState = .faulted .stackOverflow := by decide
/-- R131's example; K2. -/
theorem test_ret : (ran .ret { (boot [] [] 0 1) with callStack := [5], ip := 12 }).ip = 5 := by decide
theorem test_ret_empty : (ran .ret (boot [] [] 0 1)).runState = .faulted .stackUnderflow := by decide
/-- O3, O1. -/
theorem test_writeByte : (ran (.writeByte 0) ((boot [] [] 0 1).setReg 0 0x141)).output = [0x41] := by decide
theorem test_writeByte_negative : (ran (.writeByte 0) ((boot [] [] 0 1).setReg 0 (-1))).output = [0xFF] := by decide
/-- O5, O6. -/
theorem test_readByte :
    (ran (.readByte 9) (((boot [] [] 0 1).setReg 9 (-5)).supplyByte 0xFF)).reg 9 = 255 := by decide
theorem test_readByte_waits :
    let t := ran (.readByte 9) ((boot [] [] 0 1).setReg 9 7)
    t.reg 9 = 7 ∧ t.ip = 0 ∧ t.runState = .running ∧ t.waitingFor = some 9 := by decide
/-- O7. -/
theorem test_debug : let t := ran .debug ((boot [] [] 0 1).setIp 9)
    t.snapshots.map Snapshot.ip = [9] ∧ t.ip = 10 := by decide
/-- O8. -/
theorem test_exit : let t := ran .exit { (boot [] [] 0 1) with callStack := [5], ip := 10 }
    t.runState = .exited ∧ t.ip = 11 ∧ t.callStack = [5] := by decide
/-- O9. -/
theorem test_nop : (ran .nop ((boot [] [] 0 1).setIp 3)).ip = 4 := by decide

/-- The data of M1 to M4. -/
def eight : State := boot [] [0x11, 0x22, 0x33, 0x44, 0x55, 0x66, 0x77, 0x88] 0 1

/-- M2, M3. -/
theorem test_load_unaligned : (ran (.load 1 1) eight).reg 1 = 573785173 := by decide
theorem test_load_last : (ran (.load 5 1) eight).runState = .faulted .outOfBounds ∧
    (ran (.load 2147483647 1) eight).runState = .faulted .outOfBounds := by decide
/-- M6, M7. -/
theorem test_store : (ran (.store 1 1) ((boot [] (List.replicate 8 0) 0 1).setReg 1 0xAABBCCDD)).data.bytes 0 8 =
    [0x00, 0xAA, 0xBB, 0xCC, 0xDD, 0x00, 0x00, 0x00] := by decide
theorem test_store_out : (ran (.store 1 6) eight).runState = .faulted .outOfBounds := by decide
/-- M8; M12, where both conditions hold. -/
theorem test_push : let t := ran (.push 1) ((boot [] (List.replicate 8 0) 4 1).setReg 1 0x01020304)
    t.data.bytes 4 4 = [1, 2, 3, 4] ∧ t.sp = 0 := by decide
theorem test_push_order : (ran (.push 1) (boot [] [0, 0] 2 1)).runState = .faulted .outOfBounds ∧
    (ran (.push 1) (boot [] (List.replicate 8 0) 2 1)).runState = .faulted .stackOverflow := by decide       -- M10
/-- M15, M14. -/
theorem test_pop : let t := ran (.pop 2) (boot [] [0, 0, 0, 0, 0, 0xFF, 0xFF, 0xFF, 0xFF] 1 1)
    t.sp = 5 ∧ (t.reg 2).toInt = -1 := by decide
theorem test_pop_out : (ran (.pop 2) (boot [] (List.replicate 8 0) 4 1)).runState = .faulted .stackUnderflow := by
  decide
/-- M17. -/
theorem test_fill : (ran (.fill 0x80000000 0) (boot [] [] 0 1)).reg 0 = BitVec.ofInt 32 (-2147483648) := by decide

/-- Two registers with values, the others 0. -/
def two (a b : Word) : State := ((boot [] [] 0 1).setReg 1 a).setReg 2 b

/-- A1, and A17 with one register for all three operands. -/
theorem test_add : (ran (.add 0 1 2) (two 2147483647 1)).reg 0 = BitVec.ofInt 32 (-2147483648) := by decide
theorem test_add_same : (ran (.add 1 1 1) (two 21 0)).reg 1 = 42 := by decide
/-- A5, A6. -/
theorem test_subtract_min : (ran (.subtract 0 1 2) (two 0 0x80000000)).reg 0 = 0x80000000 := by decide
theorem test_subtract : ((ran (.subtract 0 1 2) (two 3 5)).reg 0).toInt = -2 := by decide
/-- A12, A11. -/
theorem test_multiply : ((ran (.multiply 0 1 2) (two (-3) 7)).reg 0).toInt = -21 := by decide
theorem test_multiply_wraps : (ran (.multiply 0 1 2) (two 0x12345678 16)).reg 0 = 0x23456780 := by decide
/-- A13, and rows of R185. -/
theorem test_divide : ((ran (.divide 0 1 2) (two (-7) 3)).reg 0).toInt = -2 ∧
    ((ran (.divide 0 1 2) (two 7 (-2))).reg 0).toInt = -3 ∧ ((ran (.divide 0 1 2) (two (-7) (-2))).reg 0).toInt = 3 ∧
    ((ran (.divide 0 1 2) (two 0x80000000 0x80000000)).reg 0).toInt = 1 := by decide
/-- The one overflow, and A16. -/
theorem test_divide_edges : (ran (.divide 0 1 2) (two 0x80000000 (-1))).reg 0 = 0x80000000 ∧
    (ran (.divide 0 1 2) (two 0 0)).runState = .faulted .divideByZero := by decide

/-- R244's example layout, by hand: header 12, 18, 19; one symbol "a" at offset 0; one data byte; `Exit`. -/
theorem test_loadImage : loadImage [0, 0, 0, 12, 0, 0, 0, 18, 0, 0, 0, 19, 1, 0x61, 0, 0, 0, 0, 7, 5] =
    .loaded { symbols := [⟨[0x61], 0⟩], code := [5], data := [7] } := by decide
/-- R226: exit codes 0 and 1, and 1 for a load failure. -/
theorem test_exitCode : (ran .exit (boot [] [] 0 1)).exitCode = some 0 ∧ (ran .ret (boot [] [] 0 1)).exitCode = some 1 ∧
    (ran .nop (boot [] [] 0 1)).exitCode = none ∧ (loadImage (List.replicate 8 0)).exitCode = some 1 := by decide

/-- W11: a buffer of length 8; and a symbol out of the code. -/
theorem test_loadImage_fails : loadImage (List.replicate 8 0) = .failed .invalidHeader ∧
    loadImage [0, 0, 0, 12, 0, 0, 0, 18, 0, 0, 0, 18, 1, 0x61, 0, 0, 0, 1, 5] = .failed .invalidSymbolTable := by decide

/-! ## Witnesses: states and operands that meet the hypotheses of the statements -/

/-- What a state executes, from the bytes at `Ip`. -/
theorem executes_of {s : State} {i : Instr} {n : Nat} (h : s.ready ∧ s.ipInCode) (hd : decode s.codeFrom = .instr i n) :
    s.executes i := ⟨h.1, h.2, n, hd⟩

/-- `Exit` behind `Fill`, one data word, STACK_BASE 4, one level of calls. -/
def small : State := boot [0x0A, 0, 0, 0, 42, 3, 0x05] [1, 2, 3, 4, 5, 6, 7, 8, 9, 10, 11, 12] 4 1

theorem small_inv : small.Inv where
  codeWf := by decide
  dataWf := by decide
  codeBound := by decide
  dataBound := by decide
  baseBound := by decide
  depth := Nat.zero_le _
  returns := fun v h => by cases h
  spInRegion := .inl rfl
  bpFixed := rfl
  waitInReadByte := fun r h => by cases h

theorem small_executes : small.executes (.fill 42 3) := executes_of (n := 6) (by decide) (by decide)

/-- An instruction's bytes at offset 0 and nothing else in the code. -/
theorem witness_DecodesExactlyTheEncodings : decode [0x02, 0xFF, 9, 9] = .instr (.writeByte 255) (Instr.writeByte 255).size := by
  decide

/-- The four boundary cases: opcode 16, opcode 255, one byte short, exactly enough. -/
theorem witness_UndecodableBytesFault :
    let reserved := boot [0x10] [] 0 1
    let last := boot [0xFF, 0, 0, 0, 0, 0] [] 0 1
    let short := boot [0x0F, 5, 4] [] 0 1
    let enough := boot [0x0F, 5, 4, 0] [] 0 1
    (reserved.ready ∧ reserved.ipInCode ∧ 16 ≤ (reserved.code.read 0).toNat) ∧
    (last.ready ∧ last.ipInCode ∧ 16 ≤ (last.code.read 0).toNat) ∧
    (short.ready ∧ short.ipInCode ∧ short.code.size - 0 < sizeColumn.getD 15 0) ∧
    (enough.ready ∧ enough.ipInCode ∧ ¬ (16 ≤ (enough.code.read 0).toNat ∨ enough.code.size - 0 < sizeColumn.getD 15 0)) := by
  decide

theorem witness_FetchOutsideCodeFaults :
    ((small.setIp (-1)).ready ∧ (small.setIp (-1)).ip.toInt < 0) ∧
    ((small.setIp 7).ready ∧ (small.code.size : Int) ≤ (small.setIp 7).ip.toInt) := by decide

theorem witness_StepRunsTheDecodedInstruction_fetch : small.executes (.fill 42 3) := small_executes
theorem witness_StepRunsTheDecodedInstruction_wait :
    (small.wait 9).runState = .running ∧ (small.wait 9).waitingFor = some 9 := by decide

/-- At `Ip` 0, and where the largest code segment leaves no room. -/
theorem witness_FetchWordRunsNext :
    (small.code.wf ∧ decodeTableWord 48 0x032A0000000A = some (.fill 42 3)) ∧
    ((small.setIp 2147483647).code.wf ∧ (small.setIp 2147483647).placeAt 6 = 0) := by decide

theorem witness_EndedRunsStay : small.halt.ended ∧ (small.faulted .divideByZero).ended := by decide

theorem witness_StepResultsSayWhatHappened :
    (small.ready ∧ (after small).stepResult = some .stateChange) ∧
    ((small.setIp 6).ready ∧ (after (small.setIp 6)).stepResult = some .exit) ∧
    ((small.setIp 7).ready ∧ (after (small.setIp 7)).stepResult = some (.error .unableToFetch)) := by decide
theorem witness_StepResultsSayWhatHappened_step : step small = .next (after small) := rfl

/-- A fault, a wait, a `Call`, a `Ret`, and an instruction that advances. -/
theorem witness_IpAdvancesByTheSize : small.ready ∧
    (ran .ret small).runState = .faulted .stackUnderflow ∧
    (ran (.readByte 1) small).waitingFor ≠ none ∧
    ((ran (.call 6) small).runState = .running ∧ (ran (.call 6) small).waitingFor = none) ∧
    ((ran .ret { small with callStack := [5] }).runState = .running) ∧
    ((ran .exit small).runState = .exited ∧ (ran .exit small).waitingFor = none) := by decide
theorem witness_IpAdvancesByTheSize_exec : exec .exit small = .next (ran .exit small) := rfl

/-- The last instruction of the code: `Ip` + size is CLEN. -/
theorem witness_IpNeverWraps : (small.setIp 6).executes .exit ∧ (small.setIp 6).ip.toInt + 1 = small.code.size :=
  ⟨executes_of (n := 1) (by decide) (by decide), by decide⟩
theorem witness_IpNeverWraps_inv : (small.setIp 6).Inv :=
  { small_inv with waitInReadByte := fun r h => by cases h }

theorem witness_CallPushesTheReturnAddress :
    (boot [] [] 0 0).callStack.length = (boot [] [] 0 0).params.callDepthMax ∧
    small.callStack.length ≠ small.params.callDepthMax ∧ small.ready ∧
    (-1 : Word).toInt < 0 ∧ (small.code.size : Int) ≤ (7 : Word).toInt := by decide

theorem witness_RetPopsTheReturnAddress : small.callStack = [] ∧
    ({ small with callStack := [5, 6] } : State).callStack = [5] ++ [6] := by decide

theorem witness_MatchingRetReturnsAfterTheCall :
    small.callStack.length ≠ small.params.callDepthMax ∧
    exec (.call 6) small = .next (ran (.call 6) small) ∧
    ((ran (.call 6) small).setReg 1 9).callStack = (ran (.call 6) small).callStack ∧
    exec .ret ((ran (.call 6) small).setReg 1 9) = .next (ran .ret ((ran (.call 6) small).setReg 1 9)) :=
  ⟨by decide, rfl, rfl, rfl⟩

theorem witness_ReadByteWaitsThenWritesTheByte :
    (small.supplyByte 0xFF).input = 0xFF :: [] ∧ small.input = [] ∧
    (small.wait 9).starved ∧ (small.wait 9).waitingFor = some 9 := by decide

/-- A state that executes each transferring instruction, and one where a `ReadByte` waits with and without a byte. -/
theorem witness_TransfersFollowProgramOrder :
    (boot [0x02, 1] [] 0 1).executes (.writeByte 1) ∧ (∀ r, ¬ small.executes (.writeByte r)) ∧
    ((boot [0x03, 1] [] 0 1).supplyByte 7).executes (.readByte 1) ∧
    ((small.supplyByte 7).wait 1).input = 7 :: [] ∧
    (∀ r, ¬ small.executes (.readByte r) ∧ ¬ (small.runState = .running ∧ small.waitingFor = some r)) ∧
    (small.wait 1).starved :=
  ⟨executes_of (n := 2) (by decide) (by decide), fun r h => (by cases executes_unique h small_executes),
    executes_of (n := 2) (by decide) (by decide), by decide,
    fun r => ⟨fun h => (by cases executes_unique h small_executes), fun h => (by cases h.2)⟩, by decide⟩
theorem witness_TransfersFollowProgramOrder_step : step (boot [0x02, 1] [] 0 1) = .next (after (boot [0x02, 1] [] 0 1)) :=
  rfl

theorem witness_TheDiagnosticSinkGivesNothingBack :
    (boot [0x04] [] 0 1).executes .debug ∧ ¬ small.executes .debug ∧
    step (boot [0x04] [] 0 1) = .next (after (boot [0x04] [] 0 1)) :=
  ⟨executes_of (n := 1) (by decide) (by decide), fun h => (by cases executes_unique h small_executes), rfl⟩

theorem witness_OnlyReadByteWaits :
    (boot [0x03, 1] [] 0 1).ready ∧ (after (boot [0x03, 1] [] 0 1)).waitingFor ≠ none ∧ (small.wait 1).starved := by
  decide
theorem witness_OnlyReadByteWaits_step : step (boot [0x03, 1] [] 0 1) = .next (after (boot [0x03, 1] [] 0 1)) := rfl

/-- DLEN is 12: the first and the last offset that are word-valid, and their neighbours that are not. -/
theorem witness_LoadReadsTheWord :
    ¬ (0 ≤ (-1 : Word).toInt ∧ (-1 : Word).toInt + 4 ≤ (small.data.size : Int)) ∧
    ¬ (0 ≤ (9 : Word).toInt ∧ (9 : Word).toInt + 4 ≤ (small.data.size : Int)) ∧
    (0 ≤ (0 : Word).toInt ∧ (0 : Word).toInt + 4 ≤ (small.data.size : Int)) ∧
    (0 ≤ (8 : Word).toInt ∧ (8 : Word).toInt + 4 ≤ (small.data.size : Int)) := by decide

theorem witness_StoreWritesTheWord :
    ¬ (0 ≤ (9 : Word).toInt ∧ (9 : Word).toInt + 4 ≤ (small.data.size : Int)) ∧
    (0 ≤ (8 : Word).toInt ∧ (8 : Word).toInt + 4 ≤ (small.data.size : Int) ∧ small.data.wf) := by decide

/-- `Sp` at 9 and -1 (not word-valid), at 0 and 3 (no room below), at 4 and 8 (both ends of success). -/
theorem witness_PushWritesThenLowersSp :
    (([9, -1] : List Word).all fun v => let s := small.setSp v
      decide (¬ (0 ≤ s.sp.toInt ∧ s.sp.toInt + 4 ≤ (s.data.size : Int)))) ∧
    (([0, 3] : List Word).all fun v => let s := small.setSp v
      decide (0 ≤ s.sp.toInt ∧ s.sp.toInt + 4 ≤ (s.data.size : Int) ∧ s.sp.toInt < 4)) ∧
    (([4, 8] : List Word).all fun v => let s := small.setSp v
      decide (4 ≤ s.sp.toInt ∧ s.sp.toInt + 4 ≤ (s.data.size : Int) ∧ s.data.wf)) := by decide

/-- `Sp` at 5 and -5 (fault), at 4, 0 and -4 (success; no run reaches -4). -/
theorem witness_PopRaisesSpThenReads :
    (([5, -5] : List Word).all fun v => let s := small.setSp v
      decide (¬ (0 ≤ s.sp.toInt + 4 ∧ s.sp.toInt + 8 ≤ (s.data.size : Int)))) ∧
    (([4, 0, -4] : List Word).all fun v => let s := small.setSp v
      decide (0 ≤ s.sp.toInt + 4 ∧ s.sp.toInt + 8 ≤ (s.data.size : Int) ∧ s.data.size ≤ intMax)) := by decide

theorem witness_PopUndoesPush : small.Inv ∧ small.runState = .running ∧
    exec (.push 1) small = .next (ran (.push 1) small) ∧ (ran (.push 1) small).runState = .running ∧
    exec (.pop 2) (ran (.push 1) small) = .next (ran (.pop 2) (ran (.push 1) small)) :=
  ⟨small_inv, rfl, rfl, by decide, rfl⟩

/-- From `Sp` 8 two pushes, and from `Sp` 3 none. -/
theorem witness_OperandStackHoldsAQuarterOfSp :
    ((small.setSp 8).runState = .running ∧ (small.setSp 8).data.wordValid (small.setSp 8).sp.toInt ∧
      ([1, 2] : List Reg).length = (small.setSp 8).sp.toNat / 4) ∧
    ((small.setSp 3).data.wordValid (small.setSp 3).sp.toInt ∧ ([] : List Reg).length = (small.setSp 3).sp.toNat / 4) := by
  decide

theorem witness_LoadsSeeTheLatestStore : small.data.wf ∧ small.runState = .running ∧
    exec (.store 1 4) small = .next (ran (.store 1 4) small) ∧ (ran (.store 1 4) small).runState = .running ∧
    (exec (.load 4 2) (ran (.store 1 4) small) = .next (ran (.load 4 2) (ran (.store 1 4) small)) ∧
      (ran (.load 4 2) (ran (.store 1 4) small)).runState = .running) ∧
    (exec (.load 7 2) (ran (.store 1 4) small) = .next (ran (.load 7 2) (ran (.store 1 4) small)) ∧
      (ran (.load 7 2) (ran (.store 1 4) small)).runState = .running) :=
  ⟨by decide, rfl, rfl, by decide, ⟨rfl, by decide⟩, rfl, by decide⟩

theorem witness_SegmentsStayCanonical : small.data.wf ∧ (small.data.writeWord 8 0x01000002).isSome = true ∧
    (∀ a, a < small.data.size → small.data.read a = small.data.read a) := ⟨by decide, by decide, fun _ _ => rfl⟩

/-- A zero divisor, the one overflow, and two operands of unlike signs. -/
theorem witness_DivideTruncatesTowardZero : (two 5 0).reg 2 = 0#32 ∧
    ((two 0x80000000 (-1)).reg 2 ≠ 0#32 ∧ ((two 0x80000000 (-1)).reg 1).toInt = -2147483648) ∧
    ((two 7 (-2)).reg 2 ≠ 0#32 ∧ ((two 7 (-2)).reg 1).toInt = 7) := by decide

/-- One state for each cause of R200, and the fault its step raises. -/
def causes : List (State × Fault) :=
  [(boot [0x10] [] 0 1, .invalidInstruction), (boot [] [] 0 1, .unableToFetch),
    (boot [0x06, 0, 0, 0, 0, 1] [] 0 1, .outOfBounds), (boot [0x07, 1, 0, 0, 0, 0] [] 0 1, .outOfBounds),
    (boot [0x08, 1] [] 0 1, .outOfBounds), (boot [0, 0, 0, 0, 0] [] 0 0, .stackOverflow),
    (boot [0x08, 1] [0, 0, 0, 0] 0 1, .stackOverflow), (boot [0x01] [] 0 1, .stackUnderflow),
    (boot [0x09, 1] [0, 0, 0, 0] 0 1, .stackUnderflow), (boot [0x0F, 1, 2, 3] [] 0 1, .divideByZero)]

theorem witness_FaultsArePrecise : causes.all (fun c => c.1.runState == .running && (after c.1).runState == .faulted c.2) := by
  decide
theorem witness_FaultsArePrecise_step (s : State) (h : s ∈ causes.map Prod.fst) : step s = .next (after s) := by
  simp only [causes, List.map_cons, List.map_nil, List.mem_cons, List.not_mem_nil, or_false] at h
  rcases h with rfl | rfl | rfl | rfl | rfl | rfl | rfl | rfl | rfl | rfl <;> rfl
theorem witness_FaultsHaveExactlyTheirCauses : causes.all (fun c => decide c.1.ready) := by decide
/-- The instruction each of those states executes. -/
theorem witness_TheFirstFaultInOrderIsRaised :
    (¬ (boot [] [] 0 1).ipInCode) ∧ ((boot [0x10] [] 0 1).ipInCode ∧ ∀ i, ¬ (boot [0x10] [] 0 1).executes i) ∧
    (boot [0x06, 0, 0, 0, 0, 1] [] 0 1).executes (.load 0 1) ∧ (boot [0x07, 1, 0, 0, 0, 0] [] 0 1).executes (.store 1 0) ∧
    (boot [0x08, 1] [] 0 1).executes (.push 1) ∧ (boot [0, 0, 0, 0, 0] [] 0 0).executes (.call 0) ∧
    (boot [0x08, 1] [0, 0, 0, 0] 0 1).executes (.push 1) ∧ (boot [0x01] [] 0 1).executes .ret ∧
    (boot [0x09, 1] [0, 0, 0, 0] 0 1).executes (.pop 1) ∧ (boot [0x0F, 1, 2, 3] [] 0 1).executes (.divide 1 2 3) :=
  ⟨by decide, ⟨by decide, fun i h => by obtain ⟨_, _, n, h⟩ := h; cases h⟩,
    executes_of (n := 6) (by decide) (by decide), executes_of (n := 6) (by decide) (by decide),
    executes_of (n := 2) (by decide) (by decide), executes_of (n := 5) (by decide) (by decide),
    executes_of (n := 2) (by decide) (by decide), executes_of (n := 1) (by decide) (by decide),
    executes_of (n := 2) (by decide) (by decide), executes_of (n := 4) (by decide) (by decide)⟩

theorem witness_StatusIsThePairOfCodes : small.runState = .running ∧ small.halt.runState = .exited ∧
    ∀ k : Fault, (small.faulted k).runState = .faulted k := ⟨rfl, rfl, fun _ => rfl⟩

/-- A register not written beside one that is; a fault; a wait. -/
theorem witness_OnlyTheDestinationRegisterChanges :
    exec (.fill 1 2) small = .next (ran (.fill 1 2) small) ∧ (Instr.fill 1 2).destination ≠ some 3 ∧
    (small.ready ∧ ¬ (ran .ret small).ready) ∧ ¬ (ran (.readByte 1) small).ready := ⟨rfl, by decide, by decide, by decide⟩

/-- A form that stores nothing, a fault of a form that stores, and two stores with a byte on each side. -/
theorem witness_OnlyTheStoredBytesChange :
    small.data.wf ∧ exec (.push 1) small = .next (ran (.push 1) small) ∧
    Instr.storeAddress small (.fill 1 2) = none ∧
    (small.runState = .running ∧ (ran (.store 1 9) small).runState ≠ .running) ∧
    (Instr.storeAddress small (.push 1) = some 4 ∧ (3 : Int) < 4 ∧ (4 : Int) + 4 ≤ 8) ∧
    Instr.storeAddress small (.store 1 8) = some 8 := ⟨by decide, rfl, rfl, by decide, by decide, rfl⟩

theorem witness_TheRestOfTheStateStays : exec .nop small = .next (ran .nop small) ∧
    ((∀ r, Instr.nop ≠ .push r) ∧ (∀ r, Instr.nop ≠ .pop r) ∧ (∀ t, Instr.nop ≠ .call t) ∧ Instr.nop ≠ .ret ∧
      (∀ r, Instr.nop ≠ .writeByte r) ∧ (∀ r, Instr.nop ≠ .readByte r) ∧ Instr.nop ≠ .debug ∧ Instr.nop ≠ .exit) :=
  ⟨rfl, by simp⟩

/-- A register neither read nor written; one written and not read, with the block ready after. -/
theorem witness_UnreadRegistersDoNotMatter :
    exec (.pop 2) small = .next (ran (.pop 2) small) ∧ (Instr.pop 2).readsReg 3 = false ∧
    (Instr.pop 2).destination ≠ some 3 ∧ (Instr.pop 2).readsReg 2 = false ∧ (Instr.pop 2).destination = some 2 ∧
    (ran (.pop 2) small).ready := ⟨rfl, by decide, by decide, by decide, by decide, by decide⟩

theorem witness_SpMovesOnlyByPushAndPop :
    exec (.pop 1) small = .next (ran (.pop 1) small) ∧ (ran (.pop 1) small).sp ≠ small.sp ∧
    (small.runState = .running ∧ small.data.size ≤ intMax) ∧ (ran (.pop 1) small).runState = .running ∧
    (ran (.pop 1) (small.setSp 8)).runState ≠ .running ∧
    ((∀ r, Instr.nop ≠ .push r) ∧ (∀ r, Instr.nop ≠ .pop r) ∧ Instr.nop ≠ .debug) :=
  ⟨rfl, by decide, by decide, by decide, by decide, by simp⟩

theorem witness_BpIsTheStackBaseForTheWholeRun : Instr.nop ≠ .debug ∧ exec .nop small = .next (ran .nop small) ∧
    Host.Core.run Sys2Proof.core 1 small = .next (after small) := ⟨by decide, rfl, rfl⟩

theorem witness_CodeAndConfigurationAreFixed : Host.Core.run Sys2Proof.core 1 small = .next (after small) := rfl

theorem witness_ResetValuesAreTheTable : (6 : Nat) < small.code.size ∧ (11 : Nat) < small.data.size ∧
    step small = .next (after small) ∧ (after small).runState = .running := ⟨by decide, by decide, rfl, by decide⟩

theorem witness_ResetMeetsTheInvariant : (Params.mk 2147483647 0).wellFormed = true ∧
    (LoadedProgram.mk [⟨[0x61], 0⟩] [0x05] [7]).wellFormed = true := by decide

theorem witness_StepKeepsTheInvariant : small.Inv ∧ step small = .next (after small) := ⟨small_inv, rfl⟩

/-- A buffer of 11 bytes; a code offset one past the end of 12 bytes. -/
theorem witness_BadHeadersDoNotLoad : (List.replicate 11 (0 : Byte)).length < 12 ∧
    (12 ≤ (12 : Word).toInt ∧ 12 ≤ (13 : Word).toInt ∧
      ((bigEndianBytes 12 ++ bigEndianBytes 12 ++ bigEndianBytes 13 ++ []).length : Int) < (13 : Word).toInt) := by decide

theorem witness_ImagesLoadAsTheirPrograms : (LoadedProgram.mk [⟨[0x61], 0⟩] [0x05] [7]).wellFormed = true ∧
    (imageOf (LoadedProgram.mk [⟨[0x61], 0⟩] [0x05] [7])).length ≤ intMax := by decide

theorem witness_OnlyALoadedProgramBoots : loadImage [] = .failed .invalidHeader ∧
    (bootImage ⟨0, 1⟩ (imageOf (LoadedProgram.mk [] [0x05] [7]))).isSome = true := by decide

/-- Two states that differ in registers and data, over the same code. -/
theorem witness_ControlFlowIgnoresData :
    let s := boot [0x08, 1] (List.replicate 8 0) 4 1
    let u := (boot [0x08, 1] (List.replicate 12 9) 4 1).setReg 1 5
    (s.code = u.code ∧ s.params = u.params ∧ s.ip = u.ip ∧ s.callStack = u.callStack ∧ s.ready ∧ u.ready) ∧
    step s = .next (after s) ∧ step u = .next (after u) ∧ (after s).ready ∧ (after u).ready :=
  ⟨by decide, rfl, rfl, by decide, by decide⟩

theorem witness_EveryRunEndsOrWaits : small.Inv := small_inv

theorem witness_EveryEndHasItsExitCode : (small.wait 1).starved ∧ (loadImage []).exitCode = some 1 := by decide

end Sys2Proof.Tests
end

section
/-! What an effect leaves of each field of the state, and which registers, `Sp` or `Bp` it depends on (10_state.md R22,
R26, R27). With `exec_cases` these are the frame and noninterference rules of all 16 instructions. -/

namespace Sys2Proof.Machine

variable {s t : State} {i : Instr}

/-! ## The frame of an effect, field by field -/

/-- An effect leaves every register but the instruction's destination (R22). -/
theorem effect_reg {q : Reg} (h : i.destination ≠ some q) : (effect s i).reg q = s.reg q := by
  have hne : ∀ d, i.destination = some d → q ≠ d := fun d hd e => h (e ▸ hd)
  cases i with
  | readByte r =>
    rcases input_cases s with h | ⟨b, rest, h⟩
    · rw [effect_readByte_nil h, State.reg_wait]
    · rw [effect_readByte_cons h, State.reg_advance, State.reg_setReg_of_ne _ (hne r rfl)]
      rfl
  | load _ d | fill _ d | add d _ _ | subtract d _ _ | multiply d _ _ | divide d _ _ =>
    exact State.reg_setReg_of_ne s (hne d rfl) _
  | pop d => exact State.reg_setReg_of_ne (s.setSp (s.sp + 4)) (hne d rfl) _
  | _ => rfl

/-- A `ReadByte`, completed or waiting, touches neither `Sp` nor the call stack nor what was sent. -/
theorem effect_readByte_frame (s : State) (r : Reg) :
    (effect s (.readByte r)).sp = s.sp ∧ (effect s (.readByte r)).callStack = s.callStack ∧
      (effect s (.readByte r)).output = s.output ∧ (effect s (.readByte r)).snapshots = s.snapshots := by
  rcases input_cases s with h | ⟨b, rest, h⟩
  · simp [effect_readByte_nil h]
  · simp [effect_readByte_cons h]

/-- An effect leaves the size of the data segment (R31). -/
theorem effect_data_size (s : State) (i : Instr) : (effect s i).data.size = s.data.size := by
  obtain ⟨_, _, _, h⟩ := effect_frame s i
  exact h

/-- Only `Push` and `Pop` move `Sp` (R26). -/
theorem effect_sp (hpush : ∀ r, i ≠ .push r) (hpop : ∀ r, i ≠ .pop r) : (effect s i).sp = s.sp := by
  cases i with
  | push r => exact absurd rfl (hpush r)
  | pop r => exact absurd rfl (hpop r)
  | readByte r => obtain ⟨h, _⟩ := effect_readByte_frame s r; exact h
  | _ => rfl

/-- Only `Call` and `Ret` change the call stack (R28). -/
theorem effect_callStack (hcall : ∀ target, i ≠ .call target) (hret : i ≠ .ret) :
    (effect s i).callStack = s.callStack := by
  cases i with
  | call target => exact absurd rfl (hcall target)
  | ret => exact absurd rfl hret
  | readByte r => obtain ⟨_, h, _⟩ := effect_readByte_frame s r; exact h
  | _ => rfl

/-- Only `WriteByte` sends a byte (R221). -/
theorem effect_output (h : ∀ r, i ≠ .writeByte r) : (effect s i).output = s.output := by
  cases i with
  | writeByte r => exact absurd rfl (h r)
  | readByte r => obtain ⟨_, _, h, _⟩ := effect_readByte_frame s r; exact h
  | _ => rfl

/-- Only `Debug` sends a snapshot (R223). -/
theorem effect_snapshots (h : i ≠ .debug) : (effect s i).snapshots = s.snapshots := by
  cases i with
  | debug => exact absurd rfl h
  | readByte r => obtain ⟨_, _, _, h⟩ := effect_readByte_frame s r; exact h
  | _ => rfl

/-- Only `ReadByte` takes an input byte, and begins or ends a wait (R33, R222). -/
theorem effect_input_waitingFor (h : ∀ r, i ≠ .readByte r) :
    (effect s i).input = s.input ∧ (effect s i).waitingFor = s.waitingFor := by
  cases i with
  | readByte r => exact absurd rfl (h r)
  | _ => exact ⟨rfl, rfl⟩

/-! ## What an instruction depends on -/

/-- A change `f` of the state that commutes with an instruction's fault and effect commutes with the instruction. -/
theorem exec_comm (f : State → State) (hf : ∀ k, f (s.faulted k) = (f s).faulted k)
    (hfault : ownFault (f s) i = ownFault s i) (heffect : effect (f s) i = f (effect s i))
    (h : exec i s = .next t) : exec i (f s) = .next (f t) := by
  rw [exec_eq, hfault]
  rcases exec_cases h with ⟨k, hk, rfl⟩ | ⟨hk, rfl⟩
  · simp only [hk, hf]
  · simp only [hk, heffect]

/-- A change `f` of the state that leaves the input commutes with a `ReadByte` when it commutes with its wait and its
completion. -/
theorem effect_readByte_comm (f : State → State) {r : Reg} (hinput : (f s).input = s.input)
    (hwait : (f s).wait r = f (s.wait r))
    (hdone : ∀ rest w, (({ f s with input := rest, waitingFor := none } : State).setReg r w).advance 2 =
      f ((({ s with input := rest, waitingFor := none } : State).setReg r w).advance 2)) :
    effect (f s) (.readByte r) = f (effect s (.readByte r)) := by
  rcases input_cases s with h | ⟨b, rest, h⟩
  · rw [effect_readByte_nil h, effect_readByte_nil (hinput.trans h), hwait]
  · rw [effect_readByte_cons h, effect_readByte_cons (hinput.trans h), hdone]

/-- Only `Push`, `Pop` and `Debug` read `Sp` (R26). -/
theorem exec_setSp (v : Word) (hpush : ∀ r, i ≠ .push r) (hpop : ∀ r, i ≠ .pop r) (hdebug : i ≠ .debug)
    (h : exec i s = .next t) : exec i (s.setSp v) = .next (t.setSp v) := by
  refine exec_comm (·.setSp v) (fun _ => rfl) ?_ ?_ h
  · cases i with
    | push r => exact absurd rfl (hpush r)
    | pop r => exact absurd rfl (hpop r)
    | _ => rfl
  · cases i with
    | push r => exact absurd rfl (hpush r)
    | pop r => exact absurd rfl (hpop r)
    | debug => exact absurd rfl hdebug
    | readByte r => exact effect_readByte_comm (·.setSp v) rfl rfl (fun _ _ => rfl)
    | _ => rfl

/-- The state with another value in `Bp`, which no instruction can give it (R27). -/
def State.withBp (s : State) (v : Word) : State := { s with bp := v }

/-- Only `Debug` reads `Bp` (R27). -/
theorem exec_withBp (v : Word) (hdebug : i ≠ .debug) (h : exec i s = .next t) :
    exec i (s.withBp v) = .next (t.withBp v) := by
  refine exec_comm (·.withBp v) (fun _ => rfl) (by cases i <;> rfl) ?_ h
  cases i with
  | debug => exact absurd rfl hdebug
  | readByte r => exact effect_readByte_comm (·.withBp v) rfl rfl (fun _ _ => rfl)
  | _ => rfl

section Unread

variable {r : Reg} (v : Word)

/-- The fault an instruction raises does not depend on a register it does not read. -/
theorem ownFault_setReg (h : i.readsReg r = false) : ownFault (s.setReg r v) i = ownFault s i := by
  cases i with
  | divide d a b =>
    have hb : b ≠ r := by rintro rfl; simp [Instr.readsReg] at h
    simp only [ownFault, State.reg_setReg_of_ne s hb]
  | _ => rfl

/-- The two sources of an arithmetic instruction that does not read `r` hold what they held. -/
theorem sources_setReg (s : State) {a b : Reg} (h : (r == a || r == b) = false) :
    (s.setReg r v).reg a = s.reg a ∧ (s.setReg r v).reg b = s.reg b := by
  obtain ⟨ha, hb⟩ : r ≠ a ∧ r ≠ b := by simpa using h
  exact ⟨State.reg_setReg_of_ne s ha.symm v, State.reg_setReg_of_ne s hb.symm v⟩

/-- A write of another register, and the advance, commute with giving `r` a value. -/
theorem writeReg_setReg_of_ne {d : Reg} (h : d ≠ r) (s : State) (w : Word) (n : Nat) :
    ((s.setReg r v).setReg d w).advance n = ((s.setReg d w).advance n).setReg r v :=
  congrArg (·.advance n) (State.setReg_comm s h.symm v w)

/-- A write of `r` leaves no trace of the value it was given. -/
theorem writeReg_setReg_same (s : State) (w : Word) (n : Nat) :
    ((s.setReg r v).setReg r w).advance n = (s.setReg r w).advance n :=
  congrArg (·.advance n) (State.setReg_setReg s r v w)

/-- A register that an instruction neither reads nor writes keeps the value it is given. -/
theorem effect_setReg_of_ne (h : i.readsReg r = false) (hd : i.destination ≠ some r) :
    effect (s.setReg r v) i = (effect s i).setReg r v := by
  have hne : ∀ d, i.destination = some d → d ≠ r := fun d e e' => hd (e' ▸ e)
  cases i with
  | debug => cases h
  | writeByte q | store q _ | push q =>
    have hq : q ≠ r := by rintro rfl; simp [Instr.readsReg] at h
    simp only [effect, State.reg_setReg_of_ne s hq]; rfl
  | readByte q =>
    exact effect_readByte_comm (·.setReg r v) rfl rfl (fun rest w =>
      writeReg_setReg_of_ne v (hne q rfl) { s with input := rest, waitingFor := none } w 2)
  | load addr q => exact writeReg_setReg_of_ne v (hne q rfl) s _ 6
  | pop q => exact writeReg_setReg_of_ne v (hne q rfl) (s.setSp (s.sp + 4)) _ 2
  | fill value q => exact writeReg_setReg_of_ne v (hne q rfl) s _ 6
  | add d a b | subtract d a b | multiply d a b | divide d a b =>
    obtain ⟨ha, hb⟩ := sources_setReg v s h
    simp only [effect, ha, hb]
    exact writeReg_setReg_of_ne v (hne d rfl) s _ 4
  | _ => rfl

/-- A destination that an instruction does not read holds the same result whatever it held, unless the instruction is a
`ReadByte` that waits: then it keeps the value it is given. -/
theorem effect_setReg_destination (h : i.readsReg r = false) (hd : i.destination = some r) :
    effect (s.setReg r v) i = effect s i ∨
      (effect (s.setReg r v) i = (effect s i).setReg r v ∧ (effect s i).waitingFor ≠ none) := by
  cases i with
  | readByte q =>
    cases hd
    rcases input_cases s with h | ⟨b, rest, h⟩
    · rw [effect_readByte_nil h, effect_readByte_nil (by exact h)]
      exact .inr ⟨rfl, by simp⟩
    · rw [effect_readByte_cons h, effect_readByte_cons (by exact h)]
      exact .inl (writeReg_setReg_same v { s with input := rest, waitingFor := none } _ 2)
  | load addr q => cases hd; exact .inl (writeReg_setReg_same v s _ 6)
  | pop q => cases hd; exact .inl (writeReg_setReg_same v (s.setSp (s.sp + 4)) _ 2)
  | fill value q => cases hd; exact .inl (writeReg_setReg_same v s _ 6)
  | add d a b | subtract d a b | multiply d a b | divide d a b =>
    cases hd
    obtain ⟨ha, hb⟩ := sources_setReg v s h
    simp only [effect, ha, hb]
    exact .inl (writeReg_setReg_same v s _ 4)
  | _ => cases hd

end Unread

end Sys2Proof.Machine
end

section
/-! The operand and call stacks under an effect, and the invariant of a run (10_state.md R24 to R33). -/

namespace Sys2Proof.Machine

variable {s t : State} {i : Instr}

/-! ## The stacks -/

/-- A `Push` has room exactly when `Sp` is word-valid and at least 4 (R162). -/
theorem ownFault_push_eq_none {r : Reg} :
    ownFault s (.push r) = none ↔ s.data.wordValid s.sp.toInt ∧ 4 ≤ s.sp.toInt := by
  by_cases hv : s.data.wordValid s.sp.toInt <;> simp [ownFault, hv]

/-- A `Pop` finds a word exactly when `Sp + 4` is word-valid (R163). -/
theorem ownFault_pop_eq_none {r : Reg} : ownFault s (.pop r) = none ↔ s.data.wordValid (s.sp.toInt + 4) := by
  simp [ownFault]

/-- A `Call` has room exactly when the call stack is not at its full depth (R130). -/
theorem ownFault_call_eq_none {target : Word} :
    ownFault s (.call target) = none ↔ s.callStack.length ≠ s.params.callDepthMax := by
  simp [ownFault]

/-- A completed `Push` or `Pop` leaves `Sp` word-valid (R26). -/
theorem effect_sp_wordValid {r : Reg} (hsize : s.data.size ≤ 2147483647) (hi : i = .push r ∨ i = .pop r)
    (hok : ownFault s i = none) : (effect s i).data.wordValid (effect s i).sp.toInt := by
  rw [Memory.wordValid_iff, effect_data_size]
  rcases hi with rfl | rfl
  · obtain ⟨hv, h4⟩ := ownFault_push_eq_none.mp hok
    obtain ⟨_, hfit⟩ := Memory.wordValid_iff.mp hv
    have hsp : (effect s (.push r)).sp.toInt = s.sp.toInt - 4 := toInt_sub_four h4
    omega
  · obtain ⟨hpos, hfit⟩ := Memory.wordValid_iff.mp (ownFault_pop_eq_none.mp hok)
    have hsp : (effect s (.pop r)).sp.toInt = s.sp.toInt + 4 := toInt_add_four (by omega)
    omega

/-- `Sp` stays at STACK_BASE or word-valid (R26). -/
theorem effect_spInRegion (h : s.Inv) (hok : ownFault s i = none) :
    (effect s i).sp = BitVec.ofNat 32 s.params.stackBase ∨ (effect s i).data.wordValid (effect s i).sp.toInt := by
  by_cases hi : ∃ r, i = .push r ∨ i = .pop r
  · obtain ⟨r, hi⟩ := hi
    exact .inr (effect_sp_wordValid h.dataBound hi hok)
  · rw [effect_sp (fun r e => hi ⟨r, .inl e⟩) (fun r e => hi ⟨r, .inr e⟩), Memory.wordValid_iff,
      effect_data_size]
    exact h.spInRegion

/-- An instruction that completes keeps the call stack within its depth (R28). -/
theorem effect_depth (h : s.callStack.length ≤ s.params.callDepthMax) (hok : ownFault s i = none) :
    (effect s i).callStack.length ≤ s.params.callDepthMax := by
  cases i with
  | call target =>
    have hlen : (effect s (.call target)).callStack.length = s.callStack.length + 1 := by simp [effect]
    have := ownFault_call_eq_none.mp hok
    omega
  | ret =>
    have hlen : (effect s .ret).callStack.length = s.callStack.length - 1 := by simp [effect]
    omega
  | _ => rwa [effect_callStack (by simp) (by simp)]

/-- A return address was there before or was pushed by a `Call` (R29). -/
theorem mem_effect_callStack {v : Word} (h : v ∈ (effect s i).callStack) :
    v ∈ s.callStack ∨ (∃ target, i = .call target) ∧ v = s.ip + 5 := by
  cases i with
  | call target =>
    rcases List.mem_append.mp h with h | h
    · exact .inl h
    · exact .inr ⟨⟨target, rfl⟩, List.mem_singleton.mp h⟩
  | ret => exact .inl (List.mem_of_mem_dropLast h)
  | _ => exact .inl (by rwa [effect_callStack (by simp) (by simp)] at h)

/-! ## The address after an instruction -/

/-- In a state of a run the address after the executed instruction is the exact sum (R25). -/
theorem executes_next_toInt (h : s.Inv) (hi : s.executes i) :
    (s.ip + BitVec.ofNat 32 i.size).toInt = s.ip.toInt + i.size := by
  obtain ⟨hpos, hfit⟩ := executes_fits hi
  have hclen : s.code.size ≤ 2147483647 := h.codeBound
  exact toInt_add_ofNat (by omega) (by omega) (by omega)

/-- The return address that an executed `Call` pushes lies in `[5, CLEN]` (R29). -/
theorem executes_call_return {target : Word} (h : s.Inv) (hi : s.executes (.call target)) :
    5 ≤ (s.ip + 5).toInt ∧ (s.ip + 5).toInt ≤ (s.code.size : Int) := by
  have hsize : (Instr.call target).size = 5 := rfl
  have hnext := executes_next_toInt h hi
  have hfit := executes_fits hi
  rw [hsize] at hnext hfit
  have hword : BitVec.ofNat 32 5 = (5 : Word) := rfl
  rw [hword] at hnext
  omega

/-! ## The invariant -/

/-- The instruction that a running block performs: the one at `Ip`, begun by this step or, for a `ReadByte`, by an
earlier one (R33, R110). -/
structure State.Performs (s : State) (i : Instr) : Prop where
  running : s.runState = .running
  atIp : s.nextInstr = .ok i
  begunOrReadByte : s.waitingFor = none ∨ ∃ r, i = .readByte r

/-- Every instruction but `ReadByte` is performed by the step that begins it. -/
theorem State.Performs.executes (h : s.Performs i) (hi : ∀ r, i ≠ .readByte r) : s.executes i :=
  executes_iff.mpr ⟨⟨h.running, h.begunOrReadByte.resolve_right fun ⟨r, e⟩ => hi r e⟩, h.atIp⟩

/-- After an instruction the block waits only if the instruction is a `ReadByte` with no byte there (R33). -/
theorem effect_waitingFor_eq_some (h : s.Performs i) {q : Reg} (hq : (effect s i).waitingFor = some q) :
    i = .readByte q ∧ s.input = [] := by
  by_cases hi : ∃ r, i = .readByte r
  · obtain ⟨r, rfl⟩ := hi
    rcases input_cases s with h' | ⟨b, rest, h'⟩
    · rw [effect_readByte_nil h', State.wait_waitingFor, Option.some.injEq] at hq
      exact ⟨by rw [hq], h'⟩
    · rw [effect_readByte_cons h'] at hq
      cases hq
  · have hnone := h.begunOrReadByte.resolve_right hi
    rw [(effect_input_waitingFor fun r e => hi ⟨r, e⟩).2, hnone] at hq
    cases hq

/-- The effect of the instruction performed keeps the invariant. -/
theorem inv_effect (h : s.Inv) (hi : s.Performs i) (hok : ownFault s i = none) : (effect s i).Inv := by
  obtain ⟨hcode, hparams, hbp, hsize⟩ := effect_frame s i
  refine
    { codeWf := by rw [hcode]; exact h.codeWf
      dataWf := effect_data_wf h.dataWf i
      codeBound := by rw [hcode]; exact h.codeBound
      dataBound := by rw [hsize]; exact h.dataBound
      baseBound := by rw [hparams]; exact h.baseBound
      depth := by rw [hparams]; exact effect_depth h.depth hok
      returns := fun v hv => ?_
      spInRegion := by rw [hparams]; exact effect_spInRegion h hok
      bpFixed := by rw [hbp, hparams]; exact h.bpFixed
      waitInReadByte := fun q hq => ?_ }
  · rw [hcode]
    rcases mem_effect_callStack hv with hv | ⟨⟨target, rfl⟩, rfl⟩
    · exact h.returns v hv
    · exact executes_call_return h (hi.executes (by simp))
  · obtain ⟨rfl, hin⟩ := effect_waitingFor_eq_some hi hq
    rw [effect_readByte_nil hin]
    exact ⟨hi.running, hi.atIp⟩

/-- A fault of a step that begins keeps the invariant: it changes only the run state (R201). -/
theorem inv_faulted (h : s.Inv) (hw : s.waitingFor = none) (k : Fault) : (s.faulted k).Inv :=
  { h with waitInReadByte := by simp [hw] }

/-- A step of a state of a run stays, faults before it waits, or has the effect of the instruction performed. -/
theorem step_cases_of_inv (h : s.Inv) (hstep : step s = .next t) :
    t = s ∨ (∃ k, s.waitingFor = none ∧ t = s.faulted k) ∨
      ∃ i, s.Performs i ∧ ownFault s i = none ∧ t = effect s i := by
  rcases step_cases hstep with ⟨_, rfl⟩ | ⟨r, hr, hw, he⟩ | ⟨k, hs, _, rfl⟩ | ⟨i, hi, he⟩
  · exact .inl rfl
  · rcases exec_cases he with ⟨k, hk, _⟩ | ⟨hok, rfl⟩
    · cases hk
    · exact .inr (.inr ⟨.readByte r, ⟨hr, (h.waitInReadByte r hw).2, .inr ⟨r, rfl⟩⟩, hok, rfl⟩)
  · exact .inr (.inl ⟨k, hs.2, rfl⟩)
  · obtain ⟨hs, hn⟩ := executes_iff.mp hi
    rcases exec_cases he with ⟨k, _, rfl⟩ | ⟨hok, rfl⟩
    · exact .inr (.inl ⟨k, hs.2, rfl⟩)
    · exact .inr (.inr ⟨i, ⟨hs.1, hn, .inl hs.2⟩, hok, rfl⟩)

/-- Every step keeps the invariant. -/
theorem inv_step (h : s.Inv) (hstep : step s = .next t) : t.Inv := by
  rcases step_cases_of_inv h hstep with rfl | ⟨k, hw, rfl⟩ | ⟨i, hi, hok, rfl⟩
  · exact h
  · exact inv_faulted h hw k
  · exact inv_effect h hi hok

/-- A byte supplied between steps keeps the invariant: it changes only the input. -/
theorem inv_supplyByte (h : s.Inv) (b : Byte) : (s.supplyByte b).Inv :=
  { h with waitInReadByte := h.waitInReadByte }

/-! ## Reset and whole runs -/

/-- What every step keeps holds after any number of steps. -/
theorem run_induction {P : State → Prop} (hstep : ∀ s t, P s → step s = .next t → P t) {n : Nat} (hs : P s)
    (hrun : Host.Core.run Sys2Proof.core n s = .next t) : P t := by
  induction n generalizing s with
  | zero => cases hrun; exact hs
  | succ n ih =>
    cases he : step s with
    | next u => exact ih (hstep s u hs he) (run_succ he n ▸ hrun)
    | fault k =>
      have he' : Sys2Proof.core.step s = .fault k := he
      simp only [Host.Core.run, he'] at hrun
      cases hrun
    | refused k =>
      have he' : Sys2Proof.core.step s = .refused k := he
      simp only [Host.Core.run, he'] at hrun
      cases hrun

/-- A byte of a byte string is the byte at its offset in the segment made of it (R240). -/
theorem getElem?_eq_read_ofBytes {bs : List Byte} {a : Nat} (h : a < bs.length) :
    bs[a]? = some ((Memory.ofBytes bs).read a) := by
  rw [Memory.read_ofBytes, List.getElem?_eq_getElem h, List.getD_eq_getElem _ _ h]

/-- No instruction writes `Bp` (R27). -/
theorem exec_bp (h : exec i s = .next t) : t.bp = s.bp := by
  rcases exec_cases h with ⟨k, _, rfl⟩ | ⟨_, rfl⟩
  · rfl
  · obtain ⟨_, _, hbp, _⟩ := effect_frame s i
    exact hbp

/-- No step writes `Bp`. -/
theorem step_bp (h : step s = .next t) : t.bp = s.bp := by
  rcases step_cases h with ⟨_, rfl⟩ | ⟨_, _, _, he⟩ | ⟨_, _, _, rfl⟩ | ⟨_, _, he⟩
  · rfl
  · exact exec_bp he
  · rfl
  · exact exec_bp he

/-- A step that leaves the block running began in Running (R240). -/
theorem running_of_step (h : step s = .next t) (ht : t.runState = .running) : s.runState = .running := by
  rcases step_cases h with ⟨_, rfl⟩ | ⟨_, hr, _⟩ | ⟨_, hs, _⟩ | ⟨_, ⟨hs, _⟩, _⟩
  · exact ht
  · exact hr
  · exact hs.1
  · exact hs.1

end Sys2Proof.Machine
end

section
/-! The statements of the family 10_state.md. -/

namespace Sys2Proof.Machine

/-- Settles O50: `inv_step`, from the inversion of a step in a state of a run, and `inv_supplyByte`. -/
theorem stepKeepsTheInvariant : Obligations.StepKeepsTheInvariant :=
  ⟨fun _ _ => inv_step, fun _ b h => inv_supplyByte h b⟩

/-- Settles O13: the executed instruction lies inside the code, and CLEN is an `i32`. -/
theorem ipNeverWraps : Obligations.IpNeverWraps := fun _ _ h hi =>
  ⟨executes_next_toInt h hi, (executes_fits hi).2⟩

/-- Settles O24, by the inversion of a step that begins. -/
theorem onlyReadByteWaits : Obligations.OnlyReadByteWaits := by
  refine ⟨fun _ _ => ⟨rfl, rfl⟩, fun s t hs h hw => ?_, fun s => step_of_starved⟩
  rcases step_ready_cases hs h with ⟨k, _, rfl⟩ | ⟨i, hi, _, rfl⟩
  · exact absurd hs.2 hw
  · obtain ⟨r, rfl, hin⟩ := effect_waiting hs.2 hw
    exact ⟨r, hi, hin, effect_readByte_nil hin r⟩

/-- Settles O40: a fault changes no register, an effect the destination alone, and a wait none. -/
theorem onlyTheDestinationRegisterChanges : Obligations.OnlyTheDestinationRegisterChanges := by
  intro i s t h
  rcases exec_cases h with ⟨k, _, rfl⟩ | ⟨_, rfl⟩
  · exact ⟨fun _ _ => rfl, fun _ _ _ => rfl⟩
  · refine ⟨fun q => effect_reg, fun hs ht hexit => ?_⟩
    have hrun : (effect s i).runState = .running := by rw [effect_runState, if_neg hexit, hs.1]
    obtain ⟨r, rfl, hin⟩ := effect_waiting hs.2 (fun hw => ht ⟨hrun, hw⟩)
    rw [effect_readByte_nil hin, State.wait_regs]

/-- Settles O42: a fault changes the run state alone, and an effect each field only by its own instructions. -/
theorem theRestOfTheStateStays : Obligations.TheRestOfTheStateStays := by
  intro i s t h
  rcases exec_cases h with ⟨k, _, rfl⟩ | ⟨_, rfl⟩
  · simp
  · obtain ⟨hcode, hparams, hbp, _⟩ := effect_frame s i
    exact ⟨hcode, hparams, hbp, effect_sp, effect_callStack, effect_output, effect_input_waitingFor,
      effect_snapshots, fun hexit => .inl (by rw [effect_runState, if_neg hexit])⟩

/-- Settles O43, by whether the register is the instruction's destination. -/
theorem unreadRegistersDoNotMatter : Obligations.UnreadRegistersDoNotMatter := by
  intro i s t r v hread h
  have hfault := ownFault_setReg (s := s) v hread
  by_cases hd : i.destination = some r
  · rcases exec_cases h with ⟨k, hk, rfl⟩ | ⟨hok, rfl⟩
    · exact ⟨(s.faulted k).setReg r v, by rw [exec_eq, hfault, hk]; rfl, fun hn => absurd hd hn,
        fun _ => ⟨.inr rfl, fun ht => nomatch ht.1⟩⟩
    · refine ⟨effect (s.setReg r v) i, by rw [exec_eq, hfault, hok], fun hn => absurd hd hn, fun _ => ?_⟩
      rcases effect_setReg_destination v hread hd with he | ⟨he, hw⟩
      · exact ⟨.inl he, fun _ => he⟩
      · exact ⟨.inr he, fun ht => absurd ht.2 hw⟩
  · exact ⟨t.setReg r v, exec_comm (·.setReg r v) (fun _ => rfl) hfault (effect_setReg_of_ne v hread hd) h,
      fun _ => rfl, fun hn => absurd hn hd⟩

/-- Settles O44, by the fault or the effect of the instruction. -/
theorem spMovesOnlyByPushAndPop : Obligations.SpMovesOnlyByPushAndPop := by
  refine ⟨fun _ _ => rfl, fun i s t h hne => ?_, fun r s t hrun hsize h => ?_, fun i s t v hpush hpop hdebug h =>
    exec_setSp v hpush hpop hdebug h⟩
  · by_contra hi
    rcases exec_cases h with ⟨k, _, rfl⟩ | ⟨_, rfl⟩
    · exact hne rfl
    · exact hne (effect_sp (fun r e => hi ⟨r, .inl e⟩) (fun r e => hi ⟨r, .inr e⟩))
  · obtain ⟨i, hi, h⟩ : ∃ i, (i = .push r ∨ i = .pop r) ∧ exec i s = .next t := by
      rcases h with h | h
      · exact ⟨_, .inl rfl, h⟩
      · exact ⟨_, .inr rfl, h⟩
    rcases exec_cases h with ⟨k, _, rfl⟩ | ⟨hok, rfl⟩
    · exact ⟨(nomatch ·), fun _ => rfl⟩
    · have hstay : (effect s i).runState = .running := by
        rw [effect_runState, if_neg (by rcases hi with rfl | rfl <;> simp), hrun]
      exact ⟨fun _ => effect_sp_wordValid hsize hi hok, fun ht => absurd hstay ht⟩

/-- Settles O45: no step writes `Bp`, so a run keeps its reset value. -/
theorem bpIsTheStackBaseForTheWholeRun : Obligations.BpIsTheStackBaseForTheWholeRun :=
  ⟨fun _ _ _ => exec_bp, fun _ _ _ v hdebug h => exec_withBp v hdebug h, fun p _ _ _ hrun =>
    run_induction (P := fun u => u.bp = BitVec.ofNat 32 p.stackBase) (fun _ _ hu he => (step_bp he).trans hu) rfl hrun⟩

/-- Settles O47: the reset state's fields, and the inversion of a step. -/
theorem resetValuesAreTheTable : Obligations.ResetValuesAreTheTable :=
  ⟨fun p prog => ⟨State.resetWith_reg p prog, rfl, rfl, rfl, rfl, rfl, rfl, fun _ => getElem?_eq_read_ofBytes, rfl,
    fun _ => getElem?_eq_read_ofBytes, rfl, rfl, rfl, rfl⟩, fun _ _ => running_of_step⟩

end Sys2Proof.Machine
end

section
/-! The bytes that an instruction stores, and what reads see of them (20_memory.md R53 to R62). -/

namespace Sys2Proof.Machine

variable {s t : State} {i : Instr}

/-! ## Segments -/

/-- The bytes of the segment made from a byte string are that string (R240). -/
theorem Memory.bytes_ofBytes (bs : List Byte) : (Memory.ofBytes bs).bytes 0 bs.length = bs := by
  refine List.ext_getElem (by simp) fun k _ hk => ?_
  rw [Memory.bytes_getElem, Memory.read_ofBytes, Nat.zero_add, List.getD_eq_getElem _ _ hk]

/-- Canonical segments of one size with equal bytes are equal data: outside the segment both read as 0. -/
theorem Memory.ext_read_inside {m n : Memory} (hm : m.wf) (hn : n.wf) (hs : m.size = n.size)
    (h : ∀ a, a < m.size → m.read a = n.read a) : m = n := by
  refine Memory.ext_read hm hn hs fun a => ?_
  by_cases ha : a < m.size
  · exact h a ha
  · rw [Memory.read_outside hm (by omega), Memory.read_outside hn (by omega)]

/-- A byte read after a word write: a byte of the word inside its four bytes, the byte before elsewhere (R55, R57). -/
theorem Memory.read_writeBytes_word {m : Memory} (hm : m.wf) {a : Nat} (h : a + 4 ≤ m.size) (v : Word) (b : Nat) :
    (m.writeBytes a (wordBytes v)).read b =
      if a ≤ b ∧ b < a + 4 then (bigEndianBytes v).getD (b - a) 0 else m.read b := by
  rw [Memory.read_writeBytes hm (by simpa), wordBytes_length, wordBytes_eq]
  rfl

/-- The unsigned address of a word-valid offset leaves room for the word. -/
theorem Memory.wordValid_toNat {m : Memory} {addr : Word} (h : m.wordValid addr.toInt) :
    addr.toInt.toNat = addr.toNat ∧ addr.toNat + 4 ≤ m.size := by
  obtain ⟨hpos, hfit⟩ := Memory.wordValid_iff.mp h
  have := toInt_eq_toNat_of_nonneg hpos
  exact ⟨toInt_toNat_of_nonneg hpos, by omega⟩

/-! ## Loads and stores -/

/-- A `Load` completes exactly at a word-valid offset (R160). -/
theorem ownFault_load_eq_none {addr : Word} {r : Reg} :
    ownFault s (.load addr r) = none ↔ s.data.wordValid addr.toInt := by
  simp [ownFault]

/-- A `Store` completes exactly at a word-valid offset (R161). -/
theorem ownFault_store_eq_none {addr : Word} {r : Reg} :
    ownFault s (.store r addr) = none ↔ s.data.wordValid addr.toInt := by
  simp [ownFault]

/-- A `Load` that leaves the block running gives its register the word at the offset (R160). -/
theorem exec_load_running {addr : Word} {r : Reg} (h : exec (.load addr r) s = .next t) (ht : t.runState = .running) :
    t.reg r = s.data.wordAt addr.toNat := by
  obtain ⟨hok, rfl⟩ := exec_running h ht
  obtain ⟨haddr, _⟩ := Memory.wordValid_toNat (ownFault_load_eq_none.mp hok)
  simp [effect, haddr]

/-- A `Store` that leaves the block running found room at the offset and wrote the register there (R161). -/
theorem exec_store_running {addr : Word} {r : Reg} (h : exec (.store r addr) s = .next t)
    (ht : t.runState = .running) :
    addr.toNat + 4 ≤ s.data.size ∧ t.data = s.data.writeBytes addr.toNat (wordBytes (s.reg r)) := by
  obtain ⟨hok, rfl⟩ := exec_running h ht
  obtain ⟨haddr, hfit⟩ := Memory.wordValid_toNat (ownFault_store_eq_none.mp hok)
  exact ⟨hfit, by simp [effect, haddr]⟩

/-! ## The memory frame of an effect -/

/-- An instruction that stores nothing leaves the data segment (R165). -/
theorem effect_data_of_storeAddress_none (h : i.storeAddress s = none) : (effect s i).data = s.data := by
  cases i with
  | store | push => cases h
  | readByte r =>
    rcases input_cases s with hin | ⟨b, rest, hin⟩
    · rw [effect_readByte_nil hin, State.wait_data]
    · rw [effect_readByte_cons hin]
      rfl
  | _ => rfl

/-- An instruction that stores a word and completes found its address word-valid and wrote four bytes there (R165). -/
theorem effect_data_of_storeAddress_some {b : Int} (h : i.storeAddress s = some b) (hok : ownFault s i = none) :
    s.data.wordValid b ∧ ∃ v, (effect s i).data = s.data.writeBytes b.toNat (wordBytes v) := by
  cases i with
  | store r addr => cases h; exact ⟨ownFault_store_eq_none.mp hok, s.reg r, rfl⟩
  | push r => cases h; exact ⟨(ownFault_push_eq_none.mp hok).1, s.reg r, rfl⟩
  | _ => cases h

/-- Outside the four bytes at the store address, a completed instruction leaves every byte (R55). -/
theorem effect_read_outside (hwf : s.data.wf) {b : Int} (h : i.storeAddress s = some b) (hok : ownFault s i = none)
    {a : Nat} (ha : (a : Int) < b ∨ b + 4 ≤ (a : Int)) : (effect s i).data.read a = s.data.read a := by
  obtain ⟨hv, v, hdata⟩ := effect_data_of_storeAddress_some h hok
  obtain ⟨hpos, hfit⟩ := Memory.wordValid_iff.mp hv
  obtain ⟨_, _, houtside⟩ := Memory.writeBytes_word hwf (a := b.toNat) (by omega) v
  rw [hdata, houtside a (by omega)]

/-- Of the instructions that complete, only `Exit`, which stores nothing, ends the run. -/
theorem effect_data_of_ended (hrun : s.runState = .running) (hend : (effect s i).runState ≠ .running) :
    (effect s i).data = s.data := by
  have hexit : i = .exit := by
    by_contra hne
    exact hend (by rw [effect_runState, if_neg hne, hrun])
  rw [hexit]
  rfl

end Sys2Proof.Machine
end

section
/-! The statements of the family 20_memory.md. -/

namespace Sys2Proof.Machine

/-- Settles O32: the load reads the segment that the store wrote, byte by byte. -/
theorem loadsSeeTheLatestStore : Obligations.LoadsSeeTheLatestStore := by
  intro r q addr addr' s t u hwf _ hstore ht hload hu
  obtain ⟨hfit, hdata⟩ := exec_store_running hstore ht
  rw [exec_load_running hload hu, hdata]
  refine ⟨fun he => by rw [he, Memory.wordAt_writeBytes hwf hfit], ?_⟩
  rw [Memory.wordAt_toNat]
  simp only [Memory.read_writeBytes_word hwf hfit, Nat.add_zero]

/-- Settles O41: a fault changes the run state alone, and an effect only the four bytes at the store address. -/
theorem onlyTheStoredBytesChange : Obligations.OnlyTheStoredBytesChange := by
  intro i s t hwf h
  rcases exec_cases h with ⟨k, _, rfl⟩ | ⟨hok, rfl⟩
  · simp
  · exact ⟨effect_data_size s i, fun hnone _ => by rw [effect_data_of_storeAddress_none hnone],
      fun hrun hend _ => by rw [effect_data_of_ended hrun hend],
      fun b hb _ => effect_read_outside hwf hb hok⟩

/-- Settles O33, by the laws of word writes, of segments made from byte strings, and of equality of segments. -/
theorem segmentsStayCanonical : Obligations.SegmentsStayCanonical := by
  refine ⟨fun m n a v hm hw => ?_, fun bs => ⟨Memory.ofBytes_wf bs, Memory.bytes_ofBytes bs⟩,
    fun m n => Memory.ext_read_inside⟩
  obtain ⟨hn, hsize, _⟩ := Memory.writeWord_spec hm hw
  exact ⟨hn, hsize⟩

end Sys2Proof.Machine
end

section
/-! Encodings as the bytes that decoding reads: operands to bytes and back (30_encoding.md R85, R90, R91), and the
states whose bytes do not decode (R87, R112). -/

namespace Sys2Proof

open Sys2Proof.Machine

/-! ## The shape of an encoding -/

/-- The per-instruction facts of `Laws.EncodedSize`, for every instruction. -/
theorem encodedSize (i : Instr) : Laws.EncodedSize.Statement i := by
  cases i with
  | call target => exact Laws.EncodedSize.call target
  | ret => exact Laws.EncodedSize.ret
  | writeByte r => exact Laws.EncodedSize.writeByte r
  | readByte r => exact Laws.EncodedSize.readByte r
  | debug => exact Laws.EncodedSize.debug
  | exit => exact Laws.EncodedSize.exit
  | load addr r => exact Laws.EncodedSize.load addr r
  | store r addr => exact Laws.EncodedSize.store r addr
  | push r => exact Laws.EncodedSize.push r
  | pop r => exact Laws.EncodedSize.pop r
  | fill value r => exact Laws.EncodedSize.fill value r
  | nop => exact Laws.EncodedSize.nop
  | add d a b => exact Laws.EncodedSize.add d a b
  | subtract d a b => exact Laws.EncodedSize.subtract d a b
  | multiply d a b => exact Laws.EncodedSize.multiply d a b
  | divide d a b => exact Laws.EncodedSize.divide d a b

@[simp] theorem encode_length (i : Instr) : (encode i).length = i.size := (encodedSize i).1

theorem Instr.size_eq_byteLength (i : Instr) : i.size = i.byteLength := (encodedSize i).2.1

theorem Instr.opcode_lt (i : Instr) : i.opcode < 16 := (opcodeSize_eq_some (opcodeSize_opcode i)).1

/-- An encoding begins with the opcode byte. -/
theorem encode_eq_cons (i : Instr) : ∃ operands, encode i = BitVec.ofNat 8 i.opcode :: operands := by
  obtain ⟨_, _, hhead, _⟩ := encodedSize i
  exact List.head?_eq_some_iff.mp hhead

/-! ## From an encoding to the instruction -/

/-- Decoding's operands of an encoding, with any tail, are the instruction's own: an immediate is the word of its
bytes, a register the index its byte holds (R91). -/
theorem operandsOf_encode (i : Instr) (tail : List Byte) : operandsOf i.opcode (encode i ++ tail) = some i := by
  cases i with
  | call target => exact congrArg (fun v => some (Instr.call v)) (wordOf_wordBytes target)
  | load addr r => exact congrArg (fun v => some (Instr.load v r)) (wordOf_wordBytes addr)
  | store r addr => exact congrArg (fun v => some (Instr.store r v)) (wordOf_wordBytes addr)
  | fill value r => exact congrArg (fun v => some (Instr.fill v r)) (wordOf_wordBytes value)
  | ret | debug | exit | nop => rfl
  | writeByte r | readByte r | push r | pop r => rfl
  | add d a b | subtract d a b | multiply d a b | divide d a b => rfl

/-- An encoding followed by any tail decodes to its instruction (R90, R91). -/
theorem decode_encode_append (i : Instr) (tail : List Byte) : decode (encode i ++ tail) = .instr i i.size := by
  obtain ⟨operands, he⟩ := encode_eq_cons i
  have hop : (BitVec.ofNat 8 i.opcode).toNat = i.opcode := by
    have := i.opcode_lt
    rw [BitVec.toNat_ofNat, Nat.mod_eq_of_lt (by omega)]
  refine decode_eq_instr.mpr ⟨BitVec.ofNat 8 i.opcode, operands ++ tail, by rw [he, List.cons_append], ?_, ?_, by simp⟩
  · rw [hop, opcodeSize_opcode]
  · rw [hop, operandsOf_encode]

/-! ## From decoded bytes to the encoding -/

theorem wordBytes_immAt (bs : List Byte) (k : Nat) :
    wordBytes (immAt bs k) = [byteAt bs k, byteAt bs (k + 1), byteAt bs (k + 2), byteAt bs (k + 3)] :=
  wordBytes_wordOf _ _ _ _

/-- The encoding of the instruction read is the opcode byte and then the operand bytes it was read from. -/
theorem encode_of_operandsOf {op : Nat} {bs : List Byte} {i : Instr} (h : operandsOf op bs = some i) :
    encode i = BitVec.ofNat 8 op :: (List.range' 1 (i.size - 1)).map (byteAt bs) := by
  unfold operandsOf at h
  split at h <;> cases h <;> simp only [encode, wordBytes_immAt] <;> rfl

/-- The bytes of a list one by one are its beginning. -/
theorem map_byteAt_range (bs : List Byte) {n : Nat} (h : n ≤ bs.length) :
    (List.range n).map (byteAt bs) = bs.take n := by
  apply List.ext_getElem
  · simp [h]
  · intro k hk _
    have : k < bs.length := by simp at hk; omega
    simp [byteAt, this]

/-- The bytes that decode to an instruction begin with its encoding (R85). -/
theorem encode_eq_take_of_decode {bs : List Byte} {i : Instr} {n : Nat} (h : decode bs = .instr i n) :
    encode i = bs.take n := by
  have hsize := decode_size h
  obtain ⟨op, rest, hbs, hn, hop, hlen⟩ := decode_eq_instr.mp h
  have hbyte : BitVec.ofNat 8 op.toNat = byteAt bs 0 := by simp [hbs, byteAt]
  calc encode i = BitVec.ofNat 8 op.toNat :: (List.range' 1 (n - 1)).map (byteAt bs) := by
        rw [encode_of_operandsOf hop, hsize]
    _ = (List.range' 0 (n - 1 + 1)).map (byteAt bs) := by rw [hbyte]; rfl
    _ = bs.take n := by
        rw [Nat.sub_add_cancel (opcodeSize_pos hn).1, ← List.range_eq_range', map_byteAt_range bs hlen]

/-- Decoding gives an instruction of the opcode in the first byte. -/
theorem decode_cons_opcode {op : Byte} {rest : List Byte} {i : Instr} {n : Nat}
    (h : decode (op :: rest) = .instr i n) : i.opcode = op.toNat := by
  obtain ⟨_, _, hbs, _, hop, _⟩ := decode_eq_instr.mp h
  cases hbs
  exact operandsOf_opcode hop

end Sys2Proof

namespace Sys2Proof.Machine

variable {s : State}

/-! ## Bytes that do not decode -/

/-- At an `Ip` inside the code, bytes that decode to no instruction are an invalid instruction (R112). -/
theorem nextInstr_of_undecodable (hc : s.ipInCode) (h : ¬ ∃ i n, decode s.codeFrom = .instr i n) :
    s.nextInstr = .error .invalidInstruction := by
  cases hn : s.nextInstr with
  | ok i => exact absurd ⟨i, (nextInstr_eq_ok.mp hn).2⟩ h
  | error k =>
    rcases nextInstr_eq_error hn with ⟨_, hout⟩ | ⟨rfl, _⟩
    · exact absurd hc hout
    · rfl

/-- The executed instruction has the opcode of the byte at `Ip`. -/
theorem executes_opcode {i : Instr} (h : s.executes i) : i.opcode = (s.code.read s.ip.toNat).toNat := by
  obtain ⟨_, hc, n, hd⟩ := h
  obtain ⟨rest, hr, _⟩ := codeFrom_cons hc
  exact decode_cons_opcode (hr ▸ hd)

end Sys2Proof.Machine
end

section
/-! The statements of the family 30_encoding.md. -/

namespace Sys2Proof.Machine

/-- Settles O3: decoded bytes begin with the instruction's encoding, and an encoding decodes whatever follows it. -/
theorem decodesExactlyTheEncodings : Obligations.DecodesExactlyTheEncodings := by
  intro bs i n
  constructor
  · intro h
    exact ⟨decode_size h, bs.drop n, by rw [encode_eq_take_of_decode h, List.take_append_drop]⟩
  · rintro ⟨rfl, tail, rfl⟩
    exact decode_encode_append i tail

/-- Settles O2: the round trip is the empty tail's case, and each layout is the encoder's, with the bytes of a word and
of an index written by division. -/
theorem decodingInvertsEncoding : Obligations.DecodingInvertsEncoding := by
  refine ⟨fun i => by simpa using decode_encode_append i [], ?_⟩
  simp [encode, wordBytes_eq, regByte_eq]

/-- Settles O5, by whether the bytes at `Ip` decode. -/
theorem undecodableBytesFault : Obligations.UndecodableBytesFault := by
  intro s hready hc
  dsimp only
  split
  · next hbad =>
    have hnone : ¬ ∃ i n, decode s.codeFrom = .instr i n := fun h => (decodes_iff hc).mp h hbad
    exact ⟨step_of_error hready (nextInstr_of_undecodable hc hnone), fun i ⟨_, _, hd⟩ => hnone ⟨i, hd⟩⟩
  · next hgood =>
    obtain ⟨i, n, hd⟩ := (decodes_iff hc).mpr hgood
    have hi : s.executes i := ⟨hready, hc, n, hd⟩
    exact ⟨i, hi, executes_opcode hi, by rw [i.size_eq, executes_opcode hi]⟩

/-- Settles O1, by running the decoder on the eight words. -/
theorem writtenOutWordsDecode : Obligations.WrittenOutWordsDecode :=
  ⟨rfl, rfl, rfl, rfl, rfl, rfl, rfl, rfl⟩

/-- Settles O4, by the facts of the encoding of each instruction and the size column. -/
theorem sizesFollowTheOpcodeMap : Obligations.SizesFollowTheOpcodeMap :=
  fun i => ⟨i.opcode_lt, i.size_eq, i.size_eq_byteLength, encode_length i⟩

end Sys2Proof.Machine
end

section
/-! What a step does with the bytes at `Ip`, its result and its faults, and the control state after an effect
(40_step.md R110 to R120). -/

namespace Sys2Proof

open Sys2Proof.Machine

/-- Bytes that decode still decode to the same instruction with any tail after them (R85). -/
theorem decode_append {bs : List Byte} {i : Instr} {n : Nat} (h : decode bs = .instr i n) (tail : List Byte) :
    decode (bs ++ tail) = .instr i n := by
  have hsplit : bs = encode i ++ bs.drop n := by rw [encode_eq_take_of_decode h, List.take_append_drop]
  rw [hsplit, List.append_assoc, decode_encode_append, decode_size h]

/-- When the decoder reads an instruction from a table word. -/
theorem decodeTableWord_eq_some {nbits w : Nat} {i : Instr} :
    decodeTableWord nbits w = some i ↔ ∃ n, decode (tableWordBytes nbits w) = .instr i n := by
  unfold decodeTableWord
  cases decode (tableWordBytes nbits w) <;> simp

@[simp] theorem tableWordBytes_length (nbits w : Nat) : (tableWordBytes nbits w).length = maxInstrLength := by
  simp [tableWordBytes]

end Sys2Proof

namespace Sys2Proof.Machine

variable {s t u : State} {i : Instr}

/-! ## Bytes placed for the next step -/

/-- The placed bytes end within the largest CLEN (R4). -/
theorem placeAt_add_le {n : Nat} (h : n ≤ intMax) : s.placeAt n + n ≤ intMax := by
  unfold State.placeAt
  split <;> omega

/-- After `placeBytes`, `Ip` is the offset of the bytes. -/
theorem placeBytes_ip_toInt {bs : List Byte} (h : bs.length ≤ intMax) :
    (s.placeBytes bs).ip.toInt = s.placeAt bs.length := by
  have hfit : s.placeAt bs.length + bs.length ≤ 2147483647 := placeAt_add_le h
  exact toInt_ofNat (by omega)

/-- The segment is grown to hold the placed bytes. -/
theorem placeBytes_code_size (bs : List Byte) :
    (s.placeBytes bs).code.size = max s.code.size (s.placeAt bs.length + bs.length) := by
  simp [State.placeBytes]

/-- After `placeBytes` the code from `Ip` on begins with the bytes. -/
theorem placeBytes_codeFrom {bs : List Byte} (hwf : s.code.wf) (h : bs.length ≤ intMax) :
    bs <+: (s.placeBytes bs).codeFrom := by
  have hsize := placeBytes_code_size (s := s) bs
  have hip : (s.placeBytes bs).ip.toNat = s.placeAt bs.length := by
    have hint := placeBytes_ip_toInt (s := s) h
    have := toInt_eq_toNat_of_nonneg (v := (s.placeBytes bs).ip) (by omega)
    omega
  rw [List.prefix_iff_eq_take, State.codeFrom, Memory.bytes_take, hip, Nat.min_eq_left (by omega)]
  refine List.ext_getElem (by simp) fun k hk _ => ?_
  rw [Memory.bytes_getElem, State.placeBytes, Memory.read_writeBytes (Memory.grow_wf hwf _) (by simp),
    if_pos (by omega), Nat.add_sub_cancel_left, List.getD_eq_getElem _ _ hk]

/-- After `placeBytes` of bytes that decode, the next step executes their instruction. -/
theorem executes_placeBytes {bs : List Byte} {n : Nat} (hwf : s.code.wf) (h : bs.length ≤ intMax)
    (hd : decode bs = .instr i n) : (s.placeBytes bs).executes i := by
  have hpos : 0 < bs.length := by
    obtain ⟨op, rest, rfl, _⟩ := decode_eq_instr.mp hd
    simp
  have hip := placeBytes_ip_toInt (s := s) h
  have hsize := placeBytes_code_size (s := s) bs
  obtain ⟨tail, htail⟩ := placeBytes_codeFrom hwf h
  exact ⟨⟨rfl, rfl⟩, ipInCode_iff.mpr (by omega), n, htail ▸ decode_append hd tail⟩

/-! ## The instruction executed -/

/-- A step that begins where an instruction is fetched and decoded runs it (R113). -/
theorem step_of_executes (h : s.executes i) : step s = exec i s := by
  obtain ⟨hready, hnext⟩ := executes_iff.mp h
  exact step_of_ok hready hnext

/-- The instruction fetched depends on the code and `Ip` alone. -/
theorem executes_congr (hcode : s.code = u.code) (hip : s.ip = u.ip) (hu : u.ready) (h : s.executes i) :
    u.executes i := by
  obtain ⟨_, hc, n, hd⟩ := h
  refine ⟨hu, ?_, n, ?_⟩
  · rwa [ipInCode_iff, ← hcode, ← hip]
  · rwa [State.codeFrom, ← hcode, ← hip]

/-! ## Results -/

theorem stepResult_eq_exit : s.stepResult = some .exit ↔ s.runState = .exited := by
  unfold State.stepResult
  cases s.runState <;> cases s.waitingFor <;> simp

theorem stepResult_eq_error {k : Fault} : s.stepResult = some (.error k) ↔ s.runState = .faulted k := by
  unfold State.stepResult
  cases s.runState <;> cases s.waitingFor <;> simp

theorem stepResult_eq_stateChange : s.stepResult = some .stateChange ↔ s.ready := by
  unfold State.stepResult State.ready
  cases s.runState <;> cases s.waitingFor <;> simp

/-- The run has ended exactly when the result is terminal (R115, R117). -/
theorem ended_iff_stepResult : s.ended ↔ s.stepResult = some .exit ∨ ∃ k, s.stepResult = some (.error k) := by
  simp only [stepResult_eq_exit, stepResult_eq_error, State.ended]
  cases s.runState <;> simp

/-! ## Faults and the exit -/

/-- The causes that are neither the fetch's nor the decode's are of an executed instruction (R205). -/
theorem executes_of_faultCause {k : Fault} (h : s.faultCause k) (hfetch : k ≠ .unableToFetch)
    (hdecode : k ≠ .invalidInstruction) : ∃ i, s.executes i := by
  cases k with
  | unableToFetch => exact absurd rfl hfetch
  | invalidInstruction => exact absurd rfl hdecode
  | outOfBounds => obtain ⟨_, _, hi, _⟩ | ⟨_, _, hi, _⟩ | ⟨_, hi, _⟩ := h <;> exact ⟨_, hi⟩
  | stackOverflow => obtain ⟨_, hi, _⟩ | ⟨_, hi, _⟩ := h <;> exact ⟨_, hi⟩
  | stackUnderflow => obtain ⟨hi, _⟩ | ⟨_, hi, _⟩ := h <;> exact ⟨_, hi⟩
  | divideByZero => obtain ⟨_, _, _, hi, _⟩ := h; exact ⟨_, hi⟩

/-- A step that begins where the cause of a fault holds raises that fault (R200, R201). -/
theorem step_of_faultCause {k : Fault} (hs : s.ready) (h : s.faultCause k) : step s = .next (s.faulted k) := by
  by_cases hfetch : k = .unableToFetch
  · subst hfetch
    exact step_of_error hs (nextInstr_of_outside h)
  · by_cases hdecode : k = .invalidInstruction
    · subst hdecode
      obtain ⟨hc, hbad⟩ := h
      exact step_of_error hs (nextInstr_of_undecodable hc fun hd => (decodes_iff hc).mp hd hbad)
    · obtain ⟨i, hi⟩ := executes_of_faultCause h hfetch hdecode
      rw [step_of_executes hi, exec_eq, (faultCause_iff_ownFault hi k).mp h]

/-- A step that begins leaves `Faulted(K)` exactly when the cause of K holds (R200). -/
theorem step_faulted_iff {k : Fault} (hs : s.ready) (h : step s = .next t) :
    t.runState = .faulted k ↔ s.faultCause k := by
  constructor
  · intro ht
    rcases step_ready_cases hs h with ⟨k', hk', rfl⟩ | ⟨i, _, _, rfl⟩
    · cases ht
      exact hk'
    · exact absurd ht (effect_running hs.1 k)
  · intro hk
    rw [step_of_faultCause hs hk] at h
    cases h
    rfl

/-- A step that begins leaves `Exited` exactly when it executes `Exit` (R143). -/
theorem step_exited_iff (hs : s.ready) (h : step s = .next t) : t.runState = .exited ↔ s.executes .exit := by
  constructor
  · intro ht
    rcases step_ready_cases hs h with ⟨k, _, rfl⟩ | ⟨i, hi, _, rfl⟩
    · cases ht
    · rwa [← (effect_exited hs.1).mp ht]
  · intro hi
    rw [step_of_executes hi, exec_exit] at h
    cases h
    rfl

/-! ## `Ip` and the call stack after an effect -/

/-- Every completed instruction but `Call` and `Ret` advances `Ip` by its size (R114). -/
theorem effect_ip (hw : (effect s i).waitingFor = none) (hcall : ∀ target, i ≠ .call target) (hret : i ≠ .ret) :
    (effect s i).ip = s.ip + BitVec.ofNat 32 i.size := by
  cases i with
  | call target => exact absurd rfl (hcall target)
  | ret => exact absurd rfl hret
  | readByte r =>
    rcases input_cases s with h | ⟨b, rest, h⟩
    · rw [effect_readByte_nil h] at hw
      cases hw
    · rw [effect_readByte_cons h]
      rfl
  | _ => rfl

/-- A completed `Ret` sets `Ip` to the last entry of the call stack (R131). -/
theorem effect_ret_ip (hok : ownFault s .ret = none) : s.callStack.getLast? = some (effect s .ret).ip := by
  have hne : s.callStack ≠ [] := by simpa [ownFault] using hok
  simp [effect, List.getLast?_eq_some_getLast hne]

/-- A completed instruction gives `Ip` and the call stack values that depend on these two alone (R120). -/
theorem effect_control_congr (hip : s.ip = u.ip) (hstack : s.callStack = u.callStack)
    (hs : (effect s i).waitingFor = none) (hu : (effect u i).waitingFor = none) :
    (effect s i).ip = (effect u i).ip ∧ (effect s i).callStack = (effect u i).callStack := by
  by_cases hcall : ∃ target, i = .call target
  · obtain ⟨target, rfl⟩ := hcall
    simp [effect, hip, hstack]
  · by_cases hret : i = .ret
    · subst hret
      simp [effect, hstack]
    · have hcall : ∀ target, i ≠ .call target := fun target e => hcall ⟨target, e⟩
      rw [effect_ip hs hcall hret, effect_ip hu hcall hret, effect_callStack hcall hret,
        effect_callStack hcall hret]
      exact ⟨by rw [hip], hstack⟩

/-- A step that begins and leaves the block ready has had the effect of the instruction executed. -/
theorem step_ready_ready (hs : s.ready) (h : step s = .next t) (ht : t.ready) :
    ∃ i, s.executes i ∧ t = effect s i := by
  rcases step_ready_cases hs h with ⟨k, _, rfl⟩ | ⟨i, hi, _, rfl⟩
  · cases ht.1
  · exact ⟨i, hi, rfl⟩

end Sys2Proof.Machine
end

section
/-! The statements of the family 40_step.md. -/

namespace Sys2Proof.Machine

/-- Settles O8: the placed bytes are the first from `Ip` on, and decode whatever follows them. -/
theorem fetchWordRunsNext : Obligations.FetchWordRunsNext := by
  intro s nbits w i hwf h
  obtain ⟨n, hd⟩ := decodeTableWord_eq_some.mp h
  exact step_of_executes (executes_placeBytes hwf (by simp [maxInstrLength, intMax]) hd)

/-- Settles O10: a step leaves an ended state as it is. -/
theorem endedRunsStay : Obligations.EndedRunsStay := fun _ n h =>
  ⟨run_of_step_self (step_of_ended h) n, ended_iff_stepResult.mp h⟩

/-- Settles O11: the result says the run state, which the causes of the faults and the executed instruction decide. -/
theorem stepResultsSayWhatHappened : Obligations.StepResultsSayWhatHappened := fun _ _ hs h =>
  ⟨stepResult_eq_exit.trans (step_exited_iff hs h), stepResult_eq_exit,
    fun _ => stepResult_eq_error.trans (step_faulted_iff hs h), fun _ => stepResult_eq_error,
    stepResult_eq_stateChange, fun hend => step_of_ended (ended_iff_stepResult.mpr hend)⟩

/-- Settles O12, by the fault or the effect of the instruction. -/
theorem ipAdvancesByTheSize : Obligations.IpAdvancesByTheSize := by
  intro i s t hs h
  rcases exec_cases h with ⟨k, _, rfl⟩ | ⟨hok, rfl⟩
  · exact ⟨fun _ => rfl, fun _ => rfl, fun hne => absurd rfl (hne k)⟩
  · refine ⟨fun ⟨k, hk⟩ => absurd hk (effect_running hs.1 k), fun hw => ?_, fun _ hw => ⟨?_, ?_, ?_⟩⟩
    · obtain ⟨r, rfl, hin⟩ := effect_waiting hs.2 hw
      rw [effect_readByte_nil hin, State.wait_ip]
    · rintro target rfl
      rfl
    · rintro rfl
      exact effect_ret_ip hok
    · rw [← i.size_eq]
      exact effect_ip hw

/-- Settles O54: the same code and `Ip` give the same instruction, whose effect on `Ip` and the call stack depends on
these alone. -/
theorem controlFlowIgnoresData : Obligations.ControlFlowIgnoresData := by
  intro s₁ s₂ t₁ t₂ hcode _ hip hstack hs₁ hs₂ h₁ h₂ ht₁ ht₂
  obtain ⟨i, hi, rfl⟩ := step_ready_ready hs₁ h₁ ht₁
  obtain ⟨j, hj, rfl⟩ := step_ready_ready hs₂ h₂ ht₂
  obtain rfl := executes_unique (executes_congr hcode hip hs₂ hi) hj
  exact effect_control_congr hip hstack ht₁.2 ht₂.2

/-- Settles O6: outside the code the fetch fails, and with no code every `Ip` is outside it. -/
theorem fetchOutsideCodeFaults : Obligations.FetchOutsideCodeFaults :=
  ⟨fun _ => step_of_outside, fun _ _ hcode => step_of_outside ⟨rfl, rfl⟩ (.inr (by simp [hcode]))⟩

/-- Settles O7: an executed instruction lies inside the code, and a wait goes on with its `ReadByte`. -/
theorem stepRunsTheDecodedInstruction : Obligations.StepRunsTheDecodedInstruction := by
  refine ⟨fun s i h => ⟨step_of_executes h, ?_⟩, fun s r => step_of_waiting⟩
  obtain ⟨hpos, hfit⟩ := executes_fits h
  have hip := toInt_eq_toNat_of_nonneg hpos
  rw [Instr.wellFormedAt, ← i.size_eq_byteLength, decide_eq_true_eq]
  omega

end Sys2Proof.Machine
end

section
/-! The statements of the family 41_control.md. -/

namespace Sys2Proof.Machine

variable {s : State}

/-- `Call` on a full call stack (R130). -/
theorem exec_call_of_full (hfull : s.callStack.length = s.params.callDepthMax) (target : Word) :
    exec (.call target) s = .next (s.faulted .stackOverflow) := by
  rw [exec_call, if_pos hfull]

/-- `Call` with room on the call stack (R130). -/
theorem exec_call_of_room (hroom : s.callStack.length ≠ s.params.callDepthMax) (target : Word) :
    exec (.call target) s = .next { s with callStack := s.callStack ++ [s.ip + 5], ip := target } := by
  rw [exec_call, if_neg hroom]

/-- Settles O16: the `Call` leaves the address after it as the last entry, which is the one a `Ret` pops. -/
theorem matchingRetReturnsAfterTheCall : Obligations.MatchingRetReturnsAfterTheCall := by
  intro target s t u v hroom hcall hstack hret
  rw [exec_call_of_room hroom] at hcall
  cases hcall
  rw [exec_ret_concat u hstack] at hret
  cases hret
  exact ⟨rfl, rfl, rfl⟩

/-- Settles O14: the depth decides between the fault and the push, and after a
target outside the code the next fetch fails. -/
theorem callPushesTheReturnAddress : Obligations.CallPushesTheReturnAddress := fun target _ =>
  ⟨congrArg (0 :: ·) (wordBytes_eq target), fun hfull => exec_call_of_full hfull target,
    fun hroom => ⟨exec_call_of_room hroom target,
      fun hready houtside => step_of_outside hready houtside⟩⟩

/-- Settles O15: a call stack is empty or has a last entry. -/
theorem retPopsTheReturnAddress : Obligations.RetPopsTheReturnAddress :=
  ⟨rfl, exec_ret_nil, fun s _ _ => exec_ret_concat s⟩

end Sys2Proof.Machine
end

section
/-! The statements of the family 42_io_system.md. -/

namespace Sys2Proof.Machine

variable {s : State}

/-- The byte that `WriteByte` sends is the register's value modulo 256, signed or not (R140). -/
theorem lowByte_toNat_eq_toInt_emod (v : Word) : ((lowByte v).toNat : Int) = v.toInt % 256 := by
  rw [lowByte_toNat, toInt_emod_256]

/-- A waiting `ReadByte` completes in the step after a byte is supplied (R33, R141). -/
theorem step_supplyByte_of_starved (h : s.starved) {r : Reg} (hw : s.waitingFor = some r) (b : Byte) :
    step (s.supplyByte b) =
      .next { s with regs := s.regs.set r (zeroExtendByte b), ip := s.ip + 2, input := [], waitingFor := none } := by
  obtain ⟨hrun, _, hempty⟩ := h
  have hinput : (s.supplyByte b).input = b :: [] := by simp [hempty]
  have hstep : step (s.supplyByte b) = exec (.readByte r) (s.supplyByte b) := step_of_waiting hrun hw
  exact hstep.trans (exec_readByte_cons _ r hinput)

/-- Settles O18: the value written is the zero-extended byte, and a step of a starved wait leaves the state as it is. -/
theorem readByteWaitsThenWritesTheByte : Obligations.ReadByteWaitsThenWritesTheByte := by
  refine ⟨fun r => congrArg (fun b => [3, b]) (regByte_eq r), fun r s b _ hinput => ?completes,
    fun r s => exec_readByte_nil s r, fun _ n h => run_of_step_self (step_of_starved h) n,
    fun _ _ b h hw => ?suppliedLater⟩
  case completes => exact ⟨zeroExtendByte b, zeroExtendByte_toInt b, exec_readByte_cons s r hinput⟩
  case suppliedLater => exact ⟨zeroExtendByte b, zeroExtendByte_toInt b, step_supplyByte_of_starved h hw b⟩

/-- Settles O17: the byte sent is the low byte of the register. -/
theorem writeByteSendsTheLowByte : Obligations.WriteByteSendsTheLowByte := fun r s =>
  ⟨congrArg (fun b => [2, b]) (regByte_eq r),
    lowByte (s.reg r), lowByte_toNat_eq_toInt_emod (s.reg r), exec_writeByte s r⟩

/-- Settles O19: the snapshot is taken of the state before the advance. -/
theorem debugSendsASnapshot : Obligations.DebugSendsASnapshot := ⟨rfl, exec_debug⟩

/-- Settles O20: the halt makes the run state `Exited`, which the step result and the exit code read. -/
theorem exitHaltsCleanly : Obligations.ExitHaltsCleanly :=
  ⟨rfl, fun s => ⟨exec_exit s, stepResult_eq_exit.mpr rfl, rfl⟩⟩

/-- Settles O21: `Nop` is the advance of `Ip` alone. -/
theorem nopOnlyAdvances : Obligations.NopOnlyAdvances := ⟨rfl, exec_nop⟩

end Sys2Proof.Machine
end

section
/-! The words that `Load`, `Store`, `Push` and `Pop` move, and the operand stack under pushes (43_data.md R160 to R165). -/

namespace Sys2Proof.Machine

variable {s : State}

/-! ## Encodings -/

/-- Opcode, immediate, register byte: the encoding of format IR (R90). -/
theorem formatIR_bytes (op : Byte) (v : Word) (r : Reg) :
    op :: (wordBytes v ++ [regByte r]) = op :: (bigEndianBytes v ++ [BitVec.ofNat 8 r]) := by
  rw [wordBytes_eq, regByte_eq]

/-- Opcode, register byte, immediate: the encoding of format RI (R90). -/
theorem formatRI_bytes (op : Byte) (r : Reg) (v : Word) :
    op :: regByte r :: wordBytes v = op :: BitVec.ofNat 8 r :: bigEndianBytes v := by
  rw [wordBytes_eq, regByte_eq]

/-- Opcode, register byte: the encoding of format R (R90). -/
theorem formatR_bytes (op : Byte) (r : Reg) : [op, regByte r] = [op, BitVec.ofNat 8 r] := by rw [regByte_eq]

/-! ## Completed accesses -/

/-- An instruction that raises no fault has its effect. -/
theorem exec_of_ownFault_none {i : Instr} (h : ownFault s i = none) : exec i s = .next (effect s i) := by
  rw [exec_eq, h]

/-- `Load` at a word-valid offset (R160). -/
theorem exec_load_of_wordValid {addr : Word} (h : s.data.wordValid addr.toInt) (r : Reg) :
    exec (.load addr r) s = .next ((s.setReg r (s.data.wordAt addr.toNat)).advance 6) := by
  rw [exec_load, if_pos h, (Memory.wordValid_toNat h).1]

/-- `Store` at a word-valid offset (R161). -/
theorem exec_store_of_wordValid {addr : Word} (h : s.data.wordValid addr.toInt) (r : Reg) :
    exec (.store r addr) s =
      .next ((s.setData (s.data.writeBytes addr.toNat (wordBytes (s.reg r)))).advance 6) := by
  rw [exec_store, if_pos h, (Memory.wordValid_toNat h).1]

/-- `Push` with no room below a word-valid `Sp` (R162). -/
theorem exec_push_of_lt (h : s.data.wordValid s.sp.toInt) (hlt : s.sp.toInt < 4) (r : Reg) :
    exec (.push r) s = .next (s.faulted .stackOverflow) := by
  rw [exec_push, if_pos h, if_pos hlt]

/-- `Push` with room at `Sp` and below it (R162). -/
theorem exec_push_of_room (h : s.data.wordValid s.sp.toInt) (h4 : 4 ≤ s.sp.toInt) (r : Reg) :
    exec (.push r) s =
      .next (((s.setData (s.data.writeBytes s.sp.toNat (wordBytes (s.reg r)))).setSp (s.sp - 4)).advance 2) := by
  rw [exec_push, if_pos h, if_neg (by omega), (Memory.wordValid_toNat h).1]

/-- `Pop` with a word above `Sp`, in a segment within the bound of R4 (R163). -/
theorem exec_pop_of_wordValid (h : s.data.wordValid (s.sp.toInt + 4)) (hsize : s.data.size ≤ intMax) (r : Reg) :
    (s.sp + 4).toInt = s.sp.toInt + 4 ∧
      exec (.pop r) s = .next (((s.setSp (s.sp + 4)).setReg r (s.data.wordAt (s.sp + 4).toNat)).advance 2) := by
  have hfit := (Memory.wordValid_iff.mp h).2
  have hsp : (s.sp + 4).toInt = s.sp.toInt + 4 := toInt_add_four (by unfold intMax at hsize; omega)
  refine ⟨hsp, ?_⟩
  rw [exec_pop, if_pos h, ← hsp, (Memory.wordValid_toNat (hsp ▸ h)).1]

/-! ## The operand stack -/

/-- A completed `Push` leaves a segment in which a `Pop` finds the word pushed, at the old `Sp` (W6). -/
theorem exec_pop_effect_push (hwf : s.data.wf) (h : s.data.wordValid s.sp.toInt) (h4 : 4 ≤ s.sp.toInt) (r q : Reg) :
    exec (.pop q) (effect s (.push r)) =
      .next ((((effect s (.push r)).setSp s.sp).setReg q (s.reg r)).advance 2) := by
  have hsp : (effect s (.push r)).sp.toInt + 4 = s.sp.toInt := by
    have : (effect s (.push r)).sp.toInt = s.sp.toInt - 4 := toInt_sub_four h4
    omega
  have hback : (effect s (.push r)).sp + 4 = s.sp := BitVec.sub_add_cancel s.sp 4
  have hword : (effect s (.push r)).data.wordAt s.sp.toInt.toNat = s.reg r :=
    Memory.wordAt_writeBytes hwf (by have := Memory.wordValid_iff.mp h; omega) (s.reg r)
  have hvalid : (effect s (.push r)).data.wordValid s.sp.toInt := by
    rwa [Memory.wordValid_iff, effect_data_size]
  rw [exec_pop, hsp, if_pos hvalid, hback, hword]

/-- Push one register, if every push before it answered a state: the step of the fold over a list of pushes. -/
def pushNext (o : Option State) (r : Reg) : Option State := o.bind (fun u => nextState (exec (.push r) u))

/-- As many pushes as fit below a word-valid `Sp` complete, each lowering `Sp` by 4 (R162(b)). -/
theorem pushes_complete (rs : List Reg) (hrun : s.runState = .running) (h : s.data.wordValid s.sp.toInt)
    (hfit : 4 * rs.length ≤ s.sp.toNat) :
    ∃ t, rs.foldl pushNext (some s) = some t ∧ t.runState = .running ∧ t.data.wordValid t.sp.toInt ∧
      t.sp.toNat = s.sp.toNat - 4 * rs.length := by
  induction rs generalizing s with
  | nil => exact ⟨s, rfl, hrun, h, rfl⟩
  | cons r rs ih =>
    obtain ⟨hpos, hroom⟩ := Memory.wordValid_iff.mp h
    have hnat := toInt_eq_toNat_of_nonneg hpos
    rw [List.length_cons] at hfit
    have h4 : 4 ≤ s.sp.toInt := by omega
    have hpush : pushNext (some s) r = some (effect s (.push r)) :=
      congrArg nextState (exec_of_ownFault_none (ownFault_push_eq_none.mpr ⟨h, h4⟩))
    have hsp : (effect s (.push r)).sp.toInt = s.sp.toInt - 4 := toInt_sub_four h4
    have hspNat := toInt_eq_toNat_of_nonneg (v := (effect s (.push r)).sp) (by omega)
    have hvalid : (effect s (.push r)).data.wordValid (effect s (.push r)).sp.toInt := by
      rw [Memory.wordValid_iff, effect_data_size]
      omega
    obtain ⟨t, hfold, htrun, htvalid, htsp⟩ := ih (s := effect s (.push r)) hrun hvalid (by omega)
    exact ⟨t, by rw [List.foldl_cons, hpush, hfold], htrun, htvalid, by rw [List.length_cons]; omega⟩

end Sys2Proof.Machine
end

section
/-! The statements of the family 43_data.md. -/

namespace Sys2Proof.Machine

/-- Settles O26: at a word-valid offset the new segment is the old one with the register's four bytes written. -/
theorem storeWritesTheWord : Obligations.StoreWritesTheWord := by
  refine fun r addr s => ⟨formatRI_bytes 7 r addr, fun hout => (exec_store s r addr).trans (if_neg hout),
    fun hpos hend hwf => ?_⟩
  have hvalid := Memory.wordValid_iff.mpr ⟨hpos, hend⟩
  exact ⟨_, exec_store_of_wordValid hvalid r, Memory.writeBytes_word hwf (Memory.wordValid_toNat hvalid).2 (s.reg r)⟩

/-- Settles O27: the range of `Sp` decides between the two faults and the write. -/
theorem pushWritesThenLowersSp : Obligations.PushWritesThenLowersSp := by
  refine fun r s => ⟨formatR_bytes 8 r, fun hout => (exec_push s r).trans (if_neg hout),
    fun hpos hend hlt => exec_push_of_lt ⟨hpos, hend⟩ hlt r, fun h4 hend hwf => ?_⟩
  have hvalid : s.data.wordValid s.sp.toInt := ⟨by omega, hend⟩
  exact ⟨_, s.sp - 4, toInt_sub_four h4, exec_push_of_room hvalid h4 r,
    Memory.writeBytes_word hwf (Memory.wordValid_toNat hvalid).2 (s.reg r)⟩

/-- Settles O28: `Sp + 4` is both the address read and the new `Sp`; below the bound of R4 it does not wrap. -/
theorem popRaisesSpThenReads : Obligations.PopRaisesSpThenReads := by
  intro r s
  have hiff : s.data.wordValid (s.sp.toInt + 4) ↔ 0 ≤ s.sp.toInt + 4 ∧ s.sp.toInt + 8 ≤ (s.data.size : Int) := by
    rw [Memory.wordValid_iff]; omega
  refine ⟨formatR_bytes 9 r, fun hout => (exec_pop s r).trans (if_neg (mt hiff.mp hout)), fun hpos hend hsize => ?_⟩
  obtain ⟨hsp, hexec⟩ := exec_pop_of_wordValid (hiff.mpr ⟨hpos, hend⟩) hsize r
  exact ⟨s.data.wordAt (s.sp + 4).toNat, s.sp + 4, hsp, Memory.wordAt_toNat _ _, hexec⟩

/-- Settles O30: the `Pop` reads the word that the `Push` wrote, at the `Sp` from before. -/
theorem popUndoesPush : Obligations.PopUndoesPush := by
  intro r q s t u hinv hrun hpush ht hpop
  obtain ⟨hvalid, h4, rfl⟩ := exec_push_running hpush ht
  rw [exec_pop_effect_push hinv.dataWf hvalid h4] at hpop
  cases hpop
  refine ⟨hrun, rfl, State.reg_setReg_same _ q _, fun p hp => State.reg_setReg_of_ne _ hp _, fun heq => ?sameRegister⟩
  case sameRegister =>
    have hregs : (s.setReg r (s.reg r)).regs = s.regs := by rw [State.setReg_reg_self]
    rw [heq]
    exact hregs

/-- Settles O31: after `⌊Sp / 4⌋` pushes `Sp` is still word-valid and less than 4. -/
theorem operandStackHoldsAQuarterOfSp : Obligations.OperandStackHoldsAQuarterOfSp := by
  intro rs s hrun hvalid hfit
  obtain ⟨t, hfold, htrun, htvalid, htsp⟩ := pushes_complete rs hrun hvalid (by omega)
  refine ⟨t, hfold, htrun, htsp, fun hall r => exec_push_of_lt htvalid ?_ r⟩
  rw [toInt_eq_toNat_of_nonneg (Memory.wordValid_iff.mp htvalid).1]
  omega

/-- Settles O25: at a word-valid offset the value written is the word there. -/
theorem loadReadsTheWord : Obligations.LoadReadsTheWord := fun addr r s =>
  ⟨formatIR_bytes 6 addr r, fun hout => (exec_load s addr r).trans (if_neg hout),
    fun hpos hend => ⟨s.data.wordAt addr.toNat, Memory.wordAt_toNat _ _, exec_load_of_wordValid ⟨hpos, hend⟩ r⟩⟩

/-- Settles O29: `Fill` has one outcome, its effect. -/
theorem fillWritesTheImmediate : Obligations.FillWritesTheImmediate := fun value r s =>
  ⟨formatIR_bytes 10 value r, exec_fill s value r⟩

end Sys2Proof.Machine
end

section
/-! The statements of the family 44_arithmetic.md. -/

namespace Sys2Proof.Machine

variable {s : State}

/-- Opcode and three register bytes: the encoding of format RRR (R90). -/
theorem formatRRR_bytes (op : Byte) (d a b : Reg) :
    [op, regByte d, regByte a, regByte b] = [op, BitVec.ofNat 8 d, BitVec.ofNat 8 a, BitVec.ofNat 8 b] := by
  simp only [regByte_eq]

/-- The low 32 bits of a product do not depend on the signedness of the operands (R183). -/
theorem aluMultiply_toNat (a b : Word) : (aluMultiply a b).toNat = a.toNat * b.toNat % 2 ^ 32 := by
  rw [aluMultiply_eq, BitVec.toNat_mul]

/-- `Divide` by zero (R184). -/
theorem exec_divide_of_zero {b : Reg} (hzero : s.reg b = 0#32) (d a : Reg) :
    exec (.divide d a b) s = .next (s.faulted .divideByZero) := by
  rw [exec_divide, if_pos hzero]

/-- `Divide` by a divisor that is not zero (R184). -/
theorem exec_divide_of_ne_zero {b : Reg} (hne : s.reg b ≠ 0#32) (d a : Reg) :
    exec (.divide d a b) s =
      .next ((s.setReg d (wrap32 (truncatedQuotient (s.reg a).toInt (s.reg b).toInt))).advance 4) := by
  rw [exec_divide, if_neg hne]

/-- INT_MIN divided by anything but -1 is at most INT_MAX: the quotient is at most half the magnitude of INT_MIN, or it
is not positive. -/
theorem truncatedQuotient_intMin_le {y : Int} (hy : y ≠ -1) : truncatedQuotient (-2147483648) y ≤ 2147483647 := by
  have hmag : (-2147483648 : Int).natAbs = 2147483648 := rfl
  rw [truncatedQuotient, hmag]
  split
  case isTrue hsign =>
    obtain rfl | htwo : y = 0 ∨ 2 ≤ y.natAbs := by omega
    · decide
    · have hhalf : 2147483648 / y.natAbs ≤ 2147483648 / 2 := Nat.div_le_div_left htwo (by decide)
      omega
  case isFalse =>
    generalize 2147483648 / y.natAbs = q
    omega

/-- The truncated quotient of two words is an `i32`, except for INT_MIN / -1 (R184). -/
theorem truncatedQuotient_toInt_range (a : Word) {y : Int} (hno : ¬ (a.toInt = -2147483648 ∧ y = -1)) :
    -2147483648 ≤ truncatedQuotient a.toInt y ∧ truncatedQuotient a.toInt y ≤ 2147483647 := by
  have habs := truncatedQuotient_natAbs_le a.toInt y
  have hlow : -2147483648 ≤ a.toInt := BitVec.le_toInt a
  have hhigh : a.toInt < 2147483648 := BitVec.toInt_lt
  refine ⟨by omega, ?_⟩
  by_cases hmin : a.toInt = -2147483648
  · rw [hmin]
    exact truncatedQuotient_intMin_le (fun hy => hno ⟨hmin, hy⟩)
  · omega

/-- The one quotient that wraps, INT_MIN / -1, wraps to INT_MIN (R184). -/
theorem wrap32_truncatedQuotient_overflow {x y : Int} (hover : x = -2147483648 ∧ y = -1) :
    (wrap32 (truncatedQuotient x y)).toInt = -2147483648 := by
  obtain ⟨rfl, rfl⟩ := hover
  decide

/-- Every other quotient keeps its value: the sign times the quotient of the magnitudes (R184). -/
theorem wrap32_truncatedQuotient_toInt (a : Word) {y : Int} (hy : y ≠ 0) (hno : ¬ (a.toInt = -2147483648 ∧ y = -1)) :
    (wrap32 (truncatedQuotient a.toInt y)).toInt =
      (if a.toInt = 0 ∨ (a.toInt < 0 ↔ y < 0) then 1 else -1) * (|a.toInt| / |y|) := by
  obtain ⟨hlow, hhigh⟩ := truncatedQuotient_toInt_range a hno
  rw [wrap32_toInt_of_range hlow hhigh, truncatedQuotient_eq _ _ hy]

/-- Settles O34: each result is the exact one wrapped, which is congruent to it. -/
theorem addSubtractMultiplyWrap : Obligations.AddSubtractMultiplyWrap := fun d a b s =>
  ⟨⟨formatRRR_bytes 12 d a b, aluAdd (s.reg a) (s.reg b), wrap32_toInt_emod _, exec_add s d a b⟩,
    ⟨formatRRR_bytes 13 d a b, aluSubtract (s.reg a) (s.reg b), wrap32_toInt_emod _, exec_subtract s d a b⟩,
    ⟨formatRRR_bytes 14 d a b, aluMultiply (s.reg a) (s.reg b), wrap32_toInt_emod _, aluMultiply_toNat _ _,
      exec_multiply s d a b⟩⟩

/-- Settles O35, by whether the divisor is zero and whether the quotient is the one that wraps. -/
theorem divideTruncatesTowardZero : Obligations.DivideTruncatesTowardZero := by
  refine fun d a b s => ⟨formatRRR_bytes 15 d a b, fun hzero => exec_divide_of_zero hzero d a, fun hne => ?_⟩
  have hy : (s.reg b).toInt ≠ 0 := fun h => hne (BitVec.eq_of_toInt_eq h)
  refine ⟨_, exec_divide_of_ne_zero hne d a, ?_⟩
  intro x y
  split
  case isTrue hover => exact wrap32_truncatedQuotient_overflow hover
  case isFalse hno => exact wrap32_truncatedQuotient_toInt (s.reg a) hy hno

end Sys2Proof.Machine
end

section
/-! What a step sends, takes and faults with, and what the host reads at the end of a run (60_exceptions.md R200 to R226). -/

namespace Sys2Proof.Machine

variable {s t : State} {i : Instr}

/-! ## The instruction of a step -/

/-- The step performs `i`: it executes `i`, or it goes on with a `ReadByte` that waits (R33, R113, log entry 7).
Unlike `State.Performs` it says nothing of the code at the `Ip` of a waiting state, so it needs no invariant. -/
inductive State.Runs (s : State) : Instr → Prop
  | executed {i : Instr} (h : s.executes i) : s.Runs i
  | resumed {r : Reg} (running : s.runState = .running) (waiting : s.waitingFor = some r) : s.Runs (.readByte r)

theorem State.Runs.step_eq (h : s.Runs i) : step s = exec i s := by
  cases h with
  | executed h => exact step_of_executes h
  | resumed hrun hw => exact step_of_waiting hrun hw

/-- A step that executes an instruction performs no other. -/
theorem State.Runs.eq_of_executes {j : Instr} (h : s.Runs i) (hj : s.executes j) : i = j := by
  cases h with
  | executed hi => exact executes_unique hi hj
  | resumed _ hw =>
    obtain ⟨⟨_, hready⟩, _⟩ := hj
    cases hready.symm.trans hw

/-- Every instruction but `ReadByte` is performed only by the step that executes it. -/
theorem State.Runs.executes (h : s.Runs i) (hi : ∀ r, i ≠ .readByte r) : s.executes i := by
  cases h with
  | executed h => exact h
  | resumed _ _ => exact absurd rfl (hi _)

theorem runs_readByte_iff {r : Reg} :
    s.Runs (.readByte r) ↔ s.executes (.readByte r) ∨ (s.runState = .running ∧ s.waitingFor = some r) := by
  constructor
  · intro h
    cases h with
    | executed h => exact .inl h
    | resumed hrun hw => exact .inr ⟨hrun, hw⟩
  · rintro (h | ⟨hrun, hw⟩)
    · exact .executed h
    · exact .resumed hrun hw

/-- Everything a step can do: stay ended, raise the fault whose cause holds before it waits, or have the effect of the
instruction it performs. -/
theorem step_outcomes (h : step s = .next t) :
    (s.ended ∧ t = s) ∨ (∃ k, s.ready ∧ s.faultCause k ∧ t = s.faulted k) ∨
      ∃ i, s.Runs i ∧ ownFault s i = none ∧ t = effect s i := by
  by_cases hs : s.ready
  · rcases step_ready_cases hs h with ⟨k, hk, rfl⟩ | ⟨i, hi, hok, rfl⟩
    · exact .inr (.inl ⟨k, hs, hk, rfl⟩)
    · exact .inr (.inr ⟨i, .executed hi, hok, rfl⟩)
  · rcases step_cases h with hend | ⟨r, hrun, hw, he⟩ | ⟨k, hs', _⟩ | ⟨i, ⟨hs', _⟩, _⟩
    · exact .inl hend
    · rw [exec_of_ownFault_none (i := .readByte r) rfl] at he
      cases he
      exact .inr (.inr ⟨_, .resumed hrun hw, rfl, rfl⟩)
    · exact absurd hs' hs
    · exact absurd hs' hs

/-- A step answers a next state (log entry 1). -/
theorem step_total (s : State) : ∃ t, step s = .next t := by
  by_cases hrun : s.runState = .running
  · cases hw : s.waitingFor with
    | some r => exact ⟨_, (step_of_waiting hrun hw).trans (exec_eq s _)⟩
    | none =>
      cases hn : s.nextInstr with
      | error k => exact ⟨_, step_of_error ⟨hrun, hw⟩ hn⟩
      | ok i => exact ⟨_, (step_of_ok ⟨hrun, hw⟩ hn).trans (exec_eq s i)⟩
  · exact ⟨s, step_of_ended hrun⟩

/-! ## Transfers -/

theorem lowByte_eq_ofNat (v : Word) : lowByte v = BitVec.ofNat 8 v.toNat :=
  BitVec.eq_of_toNat_eq (by rw [lowByte_toNat, BitVec.toNat_ofNat])

/-- Only a step that executes a `WriteByte` sends a byte (R221). -/
theorem step_output_of_no_writeByte (h : step s = .next t) (hno : ∀ r, ¬ s.executes (.writeByte r)) :
    t.output = s.output := by
  rcases step_outcomes h with ⟨_, rfl⟩ | ⟨k, _, _, rfl⟩ | ⟨i, hi, _, rfl⟩
  · rfl
  · rfl
  · refine effect_output ?_
    rintro r rfl
    exact hno r (hi.executes (by simp))

/-- Only a step that performs a `ReadByte` takes a byte (R222). -/
theorem step_input_of_no_readByte (h : step s = .next t) (hno : ∀ r, ¬ s.Runs (.readByte r)) :
    t.input = s.input := by
  rcases step_outcomes h with ⟨_, rfl⟩ | ⟨k, _, _, rfl⟩ | ⟨i, hi, _, rfl⟩
  · rfl
  · rfl
  · refine (effect_input_waitingFor ?_).1
    rintro r rfl
    exact hno r hi

/-- The state with other bytes and snapshots sent before it. -/
def State.withSent (s : State) (sent : List Byte) (taken : List Snapshot) : State :=
  { s with output := sent, snapshots := taken }

/-- The bytes an instruction sends when it completes (R221). -/
def bytesSent (s : State) : Instr → List Byte
  | .writeByte r => [lowByte (s.reg r)]
  | _ => []

/-- The snapshots an instruction sends when it completes (R223). -/
def snapshotsSent (s : State) : Instr → List Snapshot
  | .debug => [s.snapshot]
  | _ => []

theorem snapshotsSent_of_ne_debug (h : i ≠ .debug) : snapshotsSent s i = [] := by
  cases i with
  | debug => exact absurd rfl h
  | _ => rfl

/-- An effect appends what the instruction sends and does not depend on what was sent before (R221, R223). -/
theorem effect_withSent (sent : List Byte) (taken : List Snapshot) :
    effect (s.withSent sent taken) i =
      (effect s i).withSent (sent ++ bytesSent s i) (taken ++ snapshotsSent s i) := by
  cases i with
  | readByte r =>
    simp only [bytesSent, snapshotsSent, List.append_nil]
    exact effect_readByte_comm (·.withSent sent taken) rfl rfl (fun _ _ => rfl)
  | _ =>
    simp only [bytesSent, snapshotsSent, List.append_nil]
    rfl

/-- No fault of an instruction depends on what was sent before. -/
theorem ownFault_withSent (sent : List Byte) (taken : List Snapshot) :
    ownFault (s.withSent sent taken) i = ownFault s i := by cases i <;> rfl

/-- The instruction of a step does not depend on what was sent before. -/
theorem State.Runs.withSent (h : s.Runs i) (sent : List Byte) (taken : List Snapshot) :
    (s.withSent sent taken).Runs i := by
  cases h with
  | executed h => exact .executed h
  | resumed hrun hw => exact .resumed hrun hw

/-- A step appends the same bytes and snapshots to whatever was sent before and leaves the same state beside them; it
sends a snapshot exactly when it executes a `Debug` (R223). -/
theorem step_withSent (h : step s = .next t) :
    ∃ bytes snaps, (s.executes .debug → snaps = [s.snapshot]) ∧ (¬ s.executes .debug → snaps = []) ∧
      ∀ sent taken, step (s.withSent sent taken) = .next (t.withSent (sent ++ bytes) (taken ++ snaps)) := by
  rcases step_outcomes h with ⟨hend, rfl⟩ | ⟨k, hs, hk, rfl⟩ | ⟨i, hi, hok, rfl⟩
  · refine ⟨[], [], fun ⟨hs, _⟩ => absurd hs.1 hend, fun _ => rfl, fun sent taken => ?_⟩
    rw [List.append_nil, List.append_nil]
    exact step_of_ended hend
  · refine ⟨[], [], fun hdebug => ?_, fun _ => rfl, fun sent taken => ?_⟩
    · cases (faultCause_iff_ownFault hdebug k).mp hk
    · rw [List.append_nil, List.append_nil]
      exact step_of_faultCause (s := s.withSent sent taken) hs hk
  · refine ⟨bytesSent s i, snapshotsSent s i, fun hdebug => ?_, fun hno => ?_, fun sent taken => ?_⟩
    · rw [hi.eq_of_executes hdebug]
      rfl
    · refine snapshotsSent_of_ne_debug ?_
      rintro rfl
      exact hno (hi.executes (by simp))
    · rw [(hi.withSent sent taken).step_eq, exec_of_ownFault_none ((ownFault_withSent sent taken).trans hok),
        effect_withSent]

/-! ## The fault of a step -/

/-- At most one cause holds (R205). -/
theorem faultCause_unique {k k' : Fault} (hs : s.ready) (h : s.faultCause k) (h' : s.faultCause k') : k = k' := by
  have heq := (step_of_faultCause hs h).symm.trans (step_of_faultCause hs h')
  injection heq with heq
  injection congrArg State.runState heq

/-- With nothing to execute at an `Ip` inside the code, the cause of InvalidInstruction holds (R112). -/
theorem faultCause_invalidInstruction (hs : s.ready) (hc : s.ipInCode) (h : ∀ i, ¬ s.executes i) :
    s.faultCause .invalidInstruction := by
  refine ⟨hc, ?_⟩
  by_contra hgood
  obtain ⟨i, n, hd⟩ := (decodes_iff hc).mpr hgood
  exact h i ⟨hs, hc, n, hd⟩

/-- The one kind of fault that an instruction can raise in a state, whether or not its cause holds; none for the nine
instructions that raise none (R205). -/
def faultKind (s : State) : Instr → Option Fault
  | .call _ => some .stackOverflow
  | .ret => some .stackUnderflow
  | .load _ _ => some .outOfBounds
  | .store _ _ => some .outOfBounds
  | .push _ => some (if s.data.wordValid s.sp.toInt then .stackOverflow else .outOfBounds)
  | .pop _ => some .stackUnderflow
  | .divide _ _ _ => some .divideByZero
  | _ => none

theorem faultKind_push (r : Reg) :
    faultKind s (.push r) = some (if s.data.wordValid s.sp.toInt then .stackOverflow else .outOfBounds) := rfl

/-- A fault that an instruction raises is of its kind (R205). -/
theorem faultKind_of_ownFault {k : Fault} (h : ownFault s i = some k) : faultKind s i = some k := by
  cases i with
  | push r =>
    rw [faultKind_push]
    simp only [ownFault] at h
    split at h
    case isTrue hv =>
      rw [if_pos hv]
      split at h
      · exact h
      · cases h
    case isFalse hv => rwa [if_neg hv]
  | call | ret | divide =>
    simp only [ownFault] at h
    split at h
    · exact h
    · cases h
  | load | store | pop =>
    simp only [ownFault] at h
    split at h
    · cases h
    · exact h
  | _ => cases h

/-- Only seven instructions can raise a fault of their own (R205). -/
theorem faultKind_ne_none (h : faultKind s i ≠ none) :
    (∃ target, i = .call target) ∨ i = .ret ∨ (∃ addr r, i = .load addr r) ∨ (∃ r addr, i = .store r addr) ∨
      (∃ r, i = .push r) ∨ (∃ r, i = .pop r) ∨ ∃ d a b, i = .divide d a b := by
  cases i with
  | call | ret | load | store | push | pop | divide => simp
  | _ => exact absurd rfl h

/-! ## The status and the exit codes -/

theorem status_of_running (h : s.runState = .running) : s.status = (0, 0) := by rw [State.status, h]

theorem status_of_exited (h : s.runState = .exited) : s.status = (1, 0) := by rw [State.status, h]

theorem status_of_faulted {k : Fault} (h : s.runState = .faulted k) : s.status = (2, k.code) := by
  rw [State.status, h]

/-- The run has ended exactly in Exited and in Faulted(K) (R226). -/
theorem ended_iff : s.ended ↔ s.runState = .exited ∨ ∃ k, s.runState = .faulted k := by
  unfold State.ended
  cases s.runState <;> simp

theorem exitCode_eq_zero : s.exitCode = some 0 ↔ s.runState = .exited := by
  unfold State.exitCode
  cases s.runState <;> simp

theorem exitCode_eq_one : s.exitCode = some 1 ↔ ∃ k, s.runState = .faulted k := by
  unfold State.exitCode
  cases s.runState <;> simp

theorem exitCode_eq_none : s.exitCode = none ↔ ¬ s.ended := by
  unfold State.exitCode State.ended
  cases s.runState <;> simp

/-- Of loads, exactly the failed ones have exit code 1 (R246). -/
theorem LoadResult.exitCode_eq_one {l : LoadResult} : l.exitCode = some 1 ↔ ∃ e, l = .failed e := by
  cases l <;> simp [LoadResult.exitCode]

/-- A buffer that fails to load boots nothing (R246). -/
theorem bootImage_of_failed {p : Params} {buf : List Byte} {e : LoadError} (h : loadImage buf = .failed e) :
    bootImage p buf = none := by
  rw [bootImage, h]

end Sys2Proof.Machine
end

section
/-! The statements of the family 60_exceptions.md. -/

namespace Sys2Proof.Machine

/-- Settles O22, by the instruction that the step performs. -/
theorem transfersFollowProgramOrder : Obligations.TransfersFollowProgramOrder := by
  intro s t h
  refine ⟨fun r hi => ?_, fun hno => ?_, fun r b rest hi hinput => ?_, fun hno => ?_, fun hstarved => ?_⟩
  · rw [step_of_executes hi, exec_writeByte] at h
    cases h
    exact congrArg (fun byte => s.output ++ [byte]) (lowByte_eq_ofNat (s.reg r))
  · exact step_output_of_no_writeByte h hno
  · rw [(runs_readByte_iff.mpr hi).step_eq, exec_readByte_cons s r hinput] at h
    cases h
    exact ⟨rfl, by rw [State.reg_advance, State.reg_setReg_same, zeroExtendByte_toNat]⟩
  · exact step_input_of_no_readByte h fun r hr => not_or.mpr (hno r) (runs_readByte_iff.mp hr)
  · rw [step_of_starved hstarved] at h
    cases h
    rfl

/-- Settles O23: a step appends what it sends to whatever was sent before, its own state's lists included. -/
theorem theDiagnosticSinkGivesNothingBack : Obligations.TheDiagnosticSinkGivesNothingBack := by
  intro s t sent taken h
  obtain ⟨bytes, snaps, hdebug, hno, hstep⟩ := step_withSent h
  have hown : t = t.withSent (s.output ++ bytes) (s.snapshots ++ snaps) := by
    have hsame := h.symm.trans (hstep s.output s.snapshots)
    injection hsame
  exact ⟨bytes, snaps, congrArg State.output hown, congrArg State.snapshots hown, hdebug, hno, hstep sent taken⟩

/-- Settles O36: of a step's outcomes in a running state only the fault leaves Faulted. -/
theorem faultsArePrecise : Obligations.FaultsArePrecise := by
  intro s t k hrun h ht
  refine ⟨?_, stepResult_eq_error.mpr ht⟩
  rcases step_outcomes h with ⟨hend, _⟩ | ⟨k', _, _, rfl⟩ | ⟨i, _, _, rfl⟩
  · exact absurd hrun hend
  · cases ht
    rfl
  · exact absurd ht (effect_running hrun k)

/-- Settles O37: a step raises the fault whose cause holds, and leaves Faulted for no other reason. -/
theorem faultsHaveExactlyTheirCauses : Obligations.FaultsHaveExactlyTheirCauses :=
  ⟨fun _ _ hs => ⟨fun h => (step_faulted_iff hs h).mp rfl, step_of_faultCause hs⟩, rfl,
    fun k => by cases k <;> decide⟩

/-- Settles O38: one cause holds, and of an executed instruction it is the instruction's own. -/
theorem theFirstFaultInOrderIsRaised : Obligations.TheFirstFaultInOrderIsRaised := by
  intro s t k hs h ht
  have hcause : s.faultCause k := (step_faulted_iff hs h).mp ht
  have hkind : ∀ {i}, s.executes i → faultKind s i = some k := fun hi =>
    faultKind_of_ownFault ((faultCause_iff_ownFault hi k).mp hcause)
  have hown : ∀ {i k'}, s.executes i → faultKind s i = some k' → k = k' := fun hi hk' =>
    Option.some.inj ((hkind hi).symm.trans hk')
  exact ⟨fun k' hk' => faultCause_unique hs ((step_faulted_iff hs h).mp hk') hcause,
    fun hout => faultCause_unique hs hcause hout,
    fun hc hno => faultCause_unique hs hcause (faultCause_invalidInstruction hs hc hno),
    fun _ hi => hown hi rfl, fun hi => hown hi rfl, fun _ _ hi => hown hi rfl, fun _ _ hi => hown hi rfl,
    fun _ hi => hown hi rfl, fun _ hi => hown hi rfl, fun _ _ _ hi => hown hi rfl,
    fun i hi => faultKind_ne_none (s := s) (by simp [hkind hi])⟩

/-- Settles O9: an instruction raises its fault as a next state or has its effect. -/
theorem everyStepAnswersANextState : Obligations.EveryStepAnswersANextState :=
  ⟨fun i s => ⟨_, exec_eq s i⟩, step_total⟩

/-- Settles O39, by the run state and the code of the fault. -/
theorem statusIsThePairOfCodes : Obligations.StatusIsThePairOfCodes := fun _ =>
  ⟨status_of_running, status_of_exited, status_of_faulted, status_of_faulted, status_of_faulted, status_of_faulted,
    status_of_faulted, status_of_faulted⟩

/-- Settles O56: the run state decides the exit code of a run, and the result of loading that of a load failure. -/
theorem everyEndHasItsExitCode : Obligations.EveryEndHasItsExitCode := by
  refine ⟨fun s => ⟨ended_iff, exitCode_eq_zero, exitCode_eq_one, exitCode_eq_none, fun hstarved => ?_⟩,
    fun p buf => ⟨LoadResult.exitCode_eq_one, fun hcode => ?_⟩⟩
  · exact exitCode_eq_none.mpr fun hend => hend hstarved.1
  · obtain ⟨e, he⟩ := LoadResult.exitCode_eq_one.mp hcode
    exact bootImage_of_failed he

end Sys2Proof.Machine
end

section
/-! The loader on headers, on the drawn layout, and what it never loads (70_reset_and_hazards.md R242 to R246). -/

namespace Sys2Proof

theorem Params.wellFormed_iff {p : Params} : p.wellFormed = true ↔ p.stackBase ≤ intMax := decide_eq_true_iff

theorem LoadedProgram.wellFormed_iff {prog : LoadedProgram} :
    prog.wellFormed = true ↔ prog.code.length ≤ intMax ∧ prog.data.length ≤ intMax ∧
      ∀ y ∈ prog.symbols, y.wellFormed prog.code.length = true := by
  simp [LoadedProgram.wellFormed, and_assoc]

end Sys2Proof

namespace Sys2Proof.Machine

variable {buf rest : List Byte} {a b c : Word}

/-! ## Headers -/

/-- A buffer shorter than the header (R242). -/
theorem loadImage_of_short (h : buf.length < headerLength) : loadImage buf = .failed .invalidHeader := by
  rw [loadImage, if_pos h]

/-- The bytes of a buffer whose header holds the offsets `a`, `b` and `c`, in this order (R242). -/
def headed (a b c : Word) (rest : List Byte) : List Byte :=
  bigEndianBytes a ++ bigEndianBytes b ++ bigEndianBytes c ++ rest

theorem headed_length (a b c : Word) (rest : List Byte) :
    (headed a b c rest).length = headerLength + rest.length := by
  simp [headed, headerLength]
  omega

/-- With all three offsets past the header, only whether they lie in the buffer is left to check (log entry 13). -/
theorem loadImage_headed (ha : 12 ≤ a.toInt) (hb : 12 ≤ b.toInt) (hc : 12 ≤ c.toInt) :
    loadImage (headed a b c rest) =
      if ((headed a b c rest).length : Int) < a.toInt ∨ ((headed a b c rest).length : Int) < b.toInt ∨
          ((headed a b c rest).length : Int) < c.toInt then
        .failed .truncatedSection
      else loadSections (headed a b c rest) a.toInt.toNat b.toInt.toNat c.toInt.toNat := by
  obtain ⟨h0, h4, h8⟩ := header_offsets a b c rest
  rw [← headed] at h0 h4 h8
  have hlen := headed_length a b c rest
  rw [loadImage, if_neg (by omega), h0, h4, h8]
  dsimp only
  rw [if_neg (by simp only [headerLength]; omega)]

/-- A header whose offsets lie between its own end and the end of the buffer leads to the sections at them (R243). -/
theorem loadImage_headed_ofNat {x y z : Nat}
    (hx : headerLength ≤ x) (hy : headerLength ≤ y) (hz : headerLength ≤ z)
    (hx' : x ≤ headerLength + rest.length) (hy' : y ≤ headerLength + rest.length) (hz' : z ≤ headerLength + rest.length)
    (hlen : headerLength + rest.length ≤ intMax) :
    loadImage (headed (BitVec.ofNat 32 x) (BitVec.ofNat 32 y) (BitVec.ofNat 32 z) rest) =
      loadSections (headed (BitVec.ofNat 32 x) (BitVec.ofNat 32 y) (BitVec.ofNat 32 z) rest) x y z := by
  simp only [headerLength, intMax] at hx hy hz hx' hy' hz' hlen
  have hxInt := toInt_ofNat (n := x) (by omega)
  have hyInt := toInt_ofNat (n := y) (by omega)
  have hzInt := toInt_ofNat (n := z) (by omega)
  rw [loadImage_headed (by omega) (by omega) (by omega), if_neg (by rw [headed_length, headerLength]; omega), hxInt,
    hyInt, hzInt]
  rfl

/-! ## The drawn layout -/

/-- The first section ends where the second begins (R243). -/
theorem sectionEnd_first {len x y z : Nat} (hxy : x ≤ y) (hyz : y ≤ z) (hlen : z ≤ len) :
    sectionEnd len x [] [y, z] = y := by
  have hxz : x ≤ z := by omega
  simp [sectionEnd, hxy, hxz]
  omega

/-- The second section ends where the third begins (R243). -/
theorem sectionEnd_second {len x y z : Nat} (hxy : x ≤ y) (hyz : y ≤ z) (hlen : z ≤ len) :
    sectionEnd len y [x] [z] = z := by
  have hx : ¬ y < x := by omega
  simp [sectionEnd, hx, hyz, hlen]

/-- The third section ends where the buffer does (R243). -/
theorem sectionEnd_third {len x y z : Nat} (hxy : x ≤ y) (hyz : y ≤ z) : sectionEnd len z [x, y] [] = len := by
  have hx : ¬ z < x := by omega
  have hy : ¬ z < y := by omega
  simp [sectionEnd, hx, hy]

/-- A buffer made of a header and three sections, loaded at the offsets where they stand, has these sections. -/
theorem loadSections_consecutive {header data code : List Byte} {symbols : List Symbol} {x y z : Nat}
    (hcode : code.length ≤ intMax) (hdata : data.length ≤ intMax)
    (hsymbols : ∀ symbol ∈ symbols, symbol.wellFormed code.length = true) (hx : x = header.length)
    (hy : y = x + (symbolTableBytes symbols).length) (hz : z = y + data.length) :
    loadSections (header ++ symbolTableBytes symbols ++ data ++ code) x y z = .loaded ⟨symbols, code, data⟩ := by
  have hlen : (header ++ symbolTableBytes symbols ++ data ++ code).length = z + code.length := by
    simp only [List.length_append]
    omega
  have htable : slice (header ++ symbolTableBytes symbols ++ data ++ code) x y = symbolTableBytes symbols := by
    rw [List.append_assoc _ data]
    exact slice_mid _ _ _ hx (by omega)
  have hdataSlice : slice (header ++ symbolTableBytes symbols ++ data ++ code) y z = data :=
    slice_mid _ _ _ (by rw [List.length_append]; omega) (by rw [List.length_append]; omega)
  have hcodeSlice : slice (header ++ symbolTableBytes symbols ++ data ++ code) z (z + code.length) = code := by
    have hstart : z = (header ++ symbolTableBytes symbols ++ data).length := by
      simp only [List.length_append]
      omega
    have hend := congrArg (· + code.length) hstart
    simpa using slice_mid (header ++ symbolTableBytes symbols ++ data) code [] hstart hend
  rw [loadSections, hlen, sectionEnd_first (by omega) (by omega) (by omega),
    sectionEnd_second (by omega) (by omega) (by omega), sectionEnd_third (by omega) (by omega), htable, hdataSlice,
    hcodeSlice, if_neg (by omega), parseSymbols_symbolTableBytes symbols hsymbols (length_le_symbolTableBytes symbols)]

theorem imageOf_eq_headed (prog : LoadedProgram) :
    imageOf prog = headed (BitVec.ofNat 32 headerLength)
      (BitVec.ofNat 32 (headerLength + (symbolTableBytes prog.symbols).length))
      (BitVec.ofNat 32 (headerLength + (symbolTableBytes prog.symbols).length + prog.data.length))
      (symbolTableBytes prog.symbols ++ prog.data ++ prog.code) := by
  simp [imageOf, headed]

/-- The image of a well-formed program loads as that program. -/
theorem loadImage_imageOf {prog : LoadedProgram} (h : prog.wellFormed = true) (hlen : (imageOf prog).length ≤ intMax) :
    loadImage (imageOf prog) = .loaded prog := by
  obtain ⟨hcode, hdata, hsymbols⟩ := LoadedProgram.wellFormed_iff.mp h
  rw [imageOf_eq_headed, headed_length] at hlen
  have hrest : (symbolTableBytes prog.symbols ++ prog.data ++ prog.code).length =
      (symbolTableBytes prog.symbols).length + prog.data.length + prog.code.length := by
    simp only [List.length_append]
  rw [imageOf_eq_headed, loadImage_headed_ofNat (by omega) (by omega) (by omega) (by omega) (by omega) (by omega) hlen,
    headed, ← List.append_assoc, ← List.append_assoc]
  exact loadSections_consecutive hcode hdata hsymbols rfl rfl rfl

/-! ## What loads -/

theorem loadSections_wellFormed {x y z : Nat} {prog : LoadedProgram}
    (h : loadSections buf x y z = .loaded prog) : prog.wellFormed = true := by
  unfold loadSections at h
  dsimp only at h
  split at h
  · cases h
  · next hsize =>
    split at h
    · next hparse =>
      cases h
      exact LoadedProgram.wellFormed_iff.mpr ⟨by simp; omega, by simp; omega, parseSymbols_wellFormed hparse⟩
    · cases h
    · cases h

/-- Only well-formed programs load (R241, R244). -/
theorem wellFormed_of_loadImage {prog : LoadedProgram} (h : loadImage buf = .loaded prog) :
    prog.wellFormed = true := by
  unfold loadImage at h
  dsimp only at h
  split at h
  · cases h
  · split at h
    · cases h
    · split at h
      · cases h
      · exact loadSections_wellFormed h

/-- The block is booted exactly as the reset of the program loaded (R246, R247). -/
theorem bootImage_eq_some {p : Params} {s : State} :
    bootImage p buf = some s ↔ ∃ prog, loadImage buf = .loaded prog ∧ s = State.resetWith p prog := by
  unfold bootImage
  cases loadImage buf <;> simp [eq_comm]

end Sys2Proof.Machine
end

section
/-! The rank of a state of a run, which falls at every completed instruction; the frame of a step; and the reset state
(70_reset_and_hazards.md R240, R251, R253). -/

namespace Sys2Proof

theorem Instr.size_pos (i : Instr) : 0 < i.size := by
  obtain ⟨hpos, _⟩ := opcodeSize_pos (opcodeSize_opcode i)
  exact hpos

end Sys2Proof

namespace Sys2Proof.Machine

variable {s t : State} {i : Instr}

/-! ## The rank of a call stack and an `Ip` -/

/-- How far an offset lies below CLEN + 1: larger for lower offsets, and 0 from CLEN + 1 up. -/
def offsetGap (clen : Nat) (v : Word) : Nat := clen + 1 - v.toNat

/-- The call stack followed by `Ip` as a number in base CLEN + 2: one digit for each, the gap of its offset, the oldest
entry's digit the highest. -/
def controlDigits (clen : Nat) (callStack : List Word) (ip : Word) : Nat :=
  Nat.ofDigits (clen + 2) ((ip :: callStack.reverse).map (offsetGap clen))

/-- These digits with a 0 after them for each entry that the call stack has room for: CALL_DEPTH_MAX + 1 digits. -/
def controlRank (clen depthMax : Nat) (callStack : List Word) (ip : Word) : Nat :=
  controlDigits clen callStack ip * (clen + 2) ^ (depthMax - callStack.length)

/-- The rank of a state: that of its call stack and `Ip`. -/
def State.rank (s : State) : Nat := controlRank s.code.size s.params.callDepthMax s.callStack s.ip

theorem offsetGap_lt_base (clen : Nat) (v : Word) : offsetGap clen v < clen + 2 := by
  unfold offsetGap
  omega

theorem offsetGap_lt {clen : Nat} {v w : Word} (hv : v.toNat ≤ clen) (h : v.toNat < w.toNat) :
    offsetGap clen w < offsetGap clen v := by
  unfold offsetGap
  omega

theorem offsetGap_pos {clen : Nat} {v : Word} (hv : v.toNat ≤ clen) : 0 < offsetGap clen v := by
  unfold offsetGap
  omega

variable {clen depthMax : Nat} {callStack : List Word} {ip next v target : Word}

theorem controlDigits_lt (hip : ip.toNat ≤ clen) (h : ip.toNat < next.toNat) :
    controlDigits clen callStack next < controlDigits clen callStack ip := by
  have hgap := offsetGap_lt hip h
  simp only [controlDigits, List.map_cons, Nat.ofDigits_cons]
  omega

theorem controlDigits_concat :
    controlDigits clen (callStack ++ [v]) ip = offsetGap clen ip + (clen + 2) * controlDigits clen callStack v := by
  simp [controlDigits, Nat.ofDigits_cons]

theorem controlRank_concat :
    controlRank clen depthMax (callStack ++ [v]) ip =
      (offsetGap clen ip + (clen + 2) * controlDigits clen callStack v) *
        (clen + 2) ^ (depthMax - (callStack.length + 1)) := by
  rw [controlRank, controlDigits_concat, List.length_append, List.length_singleton]

/-- A call stack with room for an entry has a 0 after its digits. -/
theorem controlRank_of_room (h : callStack.length < depthMax) :
    controlRank clen depthMax callStack ip =
      controlDigits clen callStack ip * (clen + 2) * (clen + 2) ^ (depthMax - (callStack.length + 1)) := by
  rw [controlRank, mul_assoc, ← pow_succ']
  congr 2
  omega

/-- A larger `Ip` over the same call stack has a lower rank. -/
theorem controlRank_lt_of_advance (hip : ip.toNat ≤ clen) (h : ip.toNat < next.toNat) :
    controlRank clen depthMax callStack next < controlRank clen depthMax callStack ip :=
  Nat.mul_lt_mul_of_pos_right (controlDigits_lt hip h) (by positivity)

/-- A return to the last entry removes the last digit, which is not 0. -/
theorem controlRank_lt_of_return (hip : ip.toNat ≤ clen) (hroom : callStack.length < depthMax) :
    controlRank clen depthMax callStack v < controlRank clen depthMax (callStack ++ [v]) ip := by
  have hgap := offsetGap_pos hip
  rw [controlRank_of_room hroom, controlRank_concat]
  refine Nat.mul_lt_mul_of_pos_right ?_ (by positivity)
  linarith

/-- A call raises the last offset, which lowers its digit by at least 1; the new digit after it adds less. -/
theorem controlRank_lt_of_call (hip : ip.toNat ≤ clen) (h : ip.toNat < next.toNat)
    (hroom : callStack.length < depthMax) :
    controlRank clen depthMax (callStack ++ [next]) target < controlRank clen depthMax callStack ip := by
  have hdigit := offsetGap_lt_base clen target
  have hcarry := Nat.mul_le_mul_left (clen + 2) (Nat.succ_le_of_lt (controlDigits_lt (callStack := callStack) hip h))
  rw [controlRank_of_room hroom, controlRank_concat]
  refine Nat.mul_lt_mul_of_pos_right ?_ (by positivity)
  linarith

/-! ## The rank falls at every completed instruction -/

/-- A step of a state of a run performs the instruction at `Ip`. -/
theorem State.Runs.performs (hi : s.Runs i) (h : s.Inv) : s.Performs i := by
  cases hi with
  | executed hi =>
    obtain ⟨⟨hrun, hready⟩, hnext⟩ := executes_iff.mp hi
    exact ⟨hrun, hnext, .inl hready⟩
  | @resumed r hrun hw =>
    obtain ⟨_, hnext⟩ := h.waitInReadByte r hw
    exact ⟨hrun, hnext, .inr ⟨r, rfl⟩⟩

/-- The instruction performed is the one that the state, were it not waiting, would execute. -/
theorem State.Performs.executes_of_ready (hi : s.Performs i) :
    ({ s with waitingFor := none } : State).executes i :=
  executes_iff.mpr ⟨⟨hi.running, rfl⟩, hi.atIp⟩

/-- The instruction performed lies inside the code, and the unsigned address after it is the exact sum. -/
theorem State.Performs.next_toNat (hi : s.Performs i) (h : s.Inv) :
    (s.ip + BitVec.ofNat 32 i.size).toNat = s.ip.toNat + i.size ∧ s.ip.toNat + i.size ≤ s.code.size := by
  obtain ⟨hpos, hfit⟩ := executes_fits hi.executes_of_ready
  have hip := toInt_eq_toNat_of_nonneg hpos
  have hclen : s.code.size ≤ 2147483647 := h.codeBound
  simp only at hip hfit
  rw [BitVec.toNat_add, BitVec.toNat_ofNat]
  omega

/-- An instruction that completes lowers the rank (R253). -/
theorem rank_effect_lt (h : s.Inv) (hi : s.Performs i) (hok : ownFault s i = none)
    (hdone : (effect s i).waitingFor = none) : (effect s i).rank < s.rank := by
  obtain ⟨hcode, hparams, _⟩ := effect_frame s i
  obtain ⟨hnext, hfit⟩ := hi.next_toNat h
  have hsize := i.size_pos
  have hip : s.ip.toNat ≤ s.code.size := by omega
  rw [State.rank, State.rank, hcode, hparams]
  by_cases hcall : ∃ target, i = .call target
  · obtain ⟨target, rfl⟩ := hcall
    have hroom := ownFault_call_eq_none.mp hok
    have hdepth := h.depth
    exact controlRank_lt_of_call (next := s.ip + BitVec.ofNat 32 (Instr.call target).size) hip (by omega) (by omega)
  · by_cases hret : i = .ret
    · subst hret
      obtain ⟨rest, hrest⟩ := List.getLast?_eq_some_iff.mp (effect_ret_ip hok)
      have hstack : (effect s .ret).callStack = rest :=
        (congrArg List.dropLast hrest).trans List.dropLast_concat
      have hdepth := h.depth
      rw [hrest, List.length_append, List.length_singleton] at hdepth
      rw [hstack, hrest]
      exact controlRank_lt_of_return hip hdepth
    · have hcall : ∀ target, i ≠ .call target := fun target e => hcall ⟨target, e⟩
      rw [effect_callStack hcall hret, effect_ip hdone hcall hret]
      exact controlRank_lt_of_advance hip (by omega)

/-! ## Runs end or wait -/

/-- From a state of a run, a step ends the run, waits for a byte, or leads to a state of lower rank. -/
theorem step_ends_or_waits_or_lowers_rank (h : s.Inv) (hstep : step s = .next t) :
    t.ended ∨ t.starved ∨ t.rank < s.rank := by
  rcases step_outcomes hstep with ⟨hend, rfl⟩ | ⟨k, _, _, rfl⟩ | ⟨i, hi, hok, rfl⟩
  · exact .inl hend
  · exact .inl nofun
  · have hi := hi.performs h
    cases hw : (effect s i).waitingFor with
    | none => exact .inr (.inr (rank_effect_lt h hi hok hw))
    | some q =>
      obtain ⟨rfl, hin⟩ := effect_waitingFor_eq_some hi hw
      refine .inr (.inl ?_)
      rw [effect_readByte_nil hin]
      exact ⟨hi.running, nofun, hin⟩

/-! ## The frame of a step -/

/-- No step changes the code, the parameters or the size of the data segment (R251, R35, R31). -/
theorem step_frame (h : step s = .next t) :
    t.code = s.code ∧ t.params = s.params ∧ t.data.size = s.data.size := by
  rcases step_outcomes h with ⟨_, rfl⟩ | ⟨k, _, _, rfl⟩ | ⟨i, _, _, rfl⟩
  · exact ⟨rfl, rfl, rfl⟩
  · exact ⟨rfl, rfl, rfl⟩
  · obtain ⟨hcode, hparams, _, hsize⟩ := effect_frame s i
    exact ⟨hcode, hparams, hsize⟩

/-! ## Reset -/

theorem inv_resetWith {p : Params} {prog : LoadedProgram} (hp : p.wellFormed = true) (hprog : prog.wellFormed = true) :
    (State.resetWith p prog).Inv := by
  obtain ⟨hcode, hdata, _⟩ := LoadedProgram.wellFormed_iff.mp hprog
  exact
    { codeWf := Memory.ofBytes_wf prog.code
      dataWf := Memory.ofBytes_wf prog.data
      codeBound := hcode
      dataBound := hdata
      baseBound := Params.wellFormed_iff.mp hp
      depth := Nat.zero_le _
      returns := nofun
      spInRegion := .inl rfl
      bpFixed := rfl
      waitInReadByte := nofun }

end Sys2Proof.Machine
end

section
/-! The statements of the family 70_reset_and_hazards.md. -/

namespace Sys2Proof.Machine

/-- Settles O52: the header of an image leads to the three sections, and the symbol table's entries read back. -/
theorem imagesLoadAsTheirPrograms : Obligations.ImagesLoadAsTheirPrograms := fun _ => loadImage_imageOf

/-- Settles O55, by induction on the rank: every step that neither ends the run nor waits lowers it. -/
theorem everyRunEndsOrWaits : Obligations.EveryRunEndsOrWaits := by
  intro s h
  induction hr : s.rank using Nat.strong_induction_on generalizing s with
  | _ r ih =>
    obtain ⟨t, ht⟩ := step_total s
    rcases step_ends_or_waits_or_lowers_rank h ht with hend | hwait | hlt
    · exact ⟨1, t, run_succ ht 0, .inl hend⟩
    · exact ⟨1, t, run_succ ht 0, .inr hwait⟩
    · obtain ⟨n, u, hrun, hu⟩ := ih t.rank (hr ▸ hlt) t (inv_step h ht) rfl
      exact ⟨n + 1, u, (run_succ ht n).trans hrun, hu⟩

/-- Settles O46: what `step_frame` says of a step holds of a run. -/
theorem codeAndConfigurationAreFixed : Obligations.CodeAndConfigurationAreFixed := by
  intro n s t hrun
  refine run_induction (P := fun u => u.code = s.code ∧ u.params = s.params ∧ u.data.size = s.data.size)
    (fun u v ⟨hcode, hparams, hsize⟩ hstep => ?_) ⟨rfl, rfl, rfl⟩ hrun
  obtain ⟨hcode', hparams', hsize'⟩ := step_frame hstep
  exact ⟨hcode'.trans hcode, hparams'.trans hparams, hsize'.trans hsize⟩

/-- Settles O48, by the definition of `State.reset`. -/
theorem resetIsTheEmptyProgramsReset : Obligations.ResetIsTheEmptyProgramsReset := ⟨rfl, rfl, rfl, rfl⟩

/-- Settles O49: the parameters and the program of `State.reset` are well-formed too. -/
theorem resetMeetsTheInvariant : Obligations.ResetMeetsTheInvariant :=
  ⟨fun _ _ => inv_resetWith, inv_resetWith rfl rfl⟩

/-- Settles O51, by the loader's checks of the length and of the header's offsets. -/
theorem badHeadersDoNotLoad : Obligations.BadHeadersDoNotLoad := by
  refine ⟨fun buf => loadImage_of_short, ?_⟩
  rintro _ a b c rest rfl ha hb hc hpast
  rw [← headed] at hpast ⊢
  rw [loadImage_headed ha hb hc, if_pos hpast]

/-- Settles O53: a boot is the reset of a program that loaded, and only well-formed programs load. -/
theorem onlyALoadedProgramBoots : Obligations.OnlyALoadedProgramBoots := by
  refine fun p buf => ⟨fun _ => bootImage_of_failed, fun s hs => ?_⟩
  obtain ⟨prog, hload, hreset⟩ := bootImage_eq_some.mp hs
  exact ⟨prog, hload, wellFormed_of_loadImage hload, hreset⟩

end Sys2Proof.Machine
end
